-- ==== Sys2Proof/Word.lean ====
section
/-! DEFINITION. The 16-bit word of LC3-W422 (00_scope.md R7): one width for registers, the program counter,
instruction words, memory words and word addresses. -/

namespace Sys2Proof

/-- A 16-bit pattern (R11): a register, an instruction word or a memory word. -/
abbrev Word := BitVec 16

end Sys2Proof
end

