-- ==== Sys2Proof/Syntax.lean ====
section
/-! DEFINITION. Registers and instructions. One constructor of `Instr` for each of the 27 rows of
spec/opcode_table.json: the twenty variants of 30_encoding.md R103 and the seven named words RET (R155) and GETC, OUT,
PUTS, IN, PUTSP, HALT (R176), which the table gives rows of their own (log 9). -/

namespace Sys2Proof

/-- The eight general registers (10_state.md R25, 30_encoding.md R86). -/
inductive Reg where
  | r0 | r1 | r2 | r3 | r4 | r5 | r6 | r7
deriving DecidableEq, Repr, Inhabited

/-- A decoded instruction with its fields (30_encoding.md R103). -/
inductive Instr where
  /-- The all-zero word (R97, R133). -/
  | endOfProgram
  /-- ADD, register mode (R147). -/
  | add (dr sr1 sr2 : Reg)
  /-- ADD, immediate mode (R148). -/
  | addI (dr sr1 : Reg) (imm5 : BitVec 5)
  /-- AND, register mode (R149). -/
  | and (dr sr1 sr2 : Reg)
  /-- AND, immediate mode (R150). -/
  | andI (dr sr1 : Reg) (imm5 : BitVec 5)
  /-- BR, every mask (R153). -/
  | br (nzp : BitVec 3) (off9 : BitVec 9)
  /-- JMP (R154). -/
  | jmp (base : Reg)
  /-- RET, the JMP whose base register is R7 (R155). -/
  | ret
  /-- JSR (R156). -/
  | jsr (off11 : BitVec 11)
  /-- JSRR (R157). -/
  | jsrr (base : Reg)
  /-- LD (R160). -/
  | ld (dr : Reg) (off9 : BitVec 9)
  /-- LDI (R161). -/
  | ldi (dr : Reg) (off9 : BitVec 9)
  /-- LDR (R162). -/
  | ldr (dr base : Reg) (off6 : BitVec 6)
  /-- LEA (R163). -/
  | lea (dr : Reg) (off9 : BitVec 9)
  /-- NOT (R165). -/
  | not (dr sr : Reg)
  /-- ST (R167). -/
  | st (sr : Reg) (off9 : BitVec 9)
  /-- STI (R168). -/
  | sti (sr : Reg) (off9 : BitVec 9)
  /-- STR (R169). -/
  | str (sr base : Reg) (off6 : BitVec 6)
  /-- RTI (R171). -/
  | rti
  /-- TRAP, every vector (R172). -/
  | trap (vect8 : BitVec 8)
  /-- GETC, TRAP 0x20 (R174). -/
  | getc
  /-- OUT, TRAP 0x21 (R174). -/
  | out
  /-- PUTS, TRAP 0x22 (R174). -/
  | puts
  /-- IN, TRAP 0x23 (R174). -/
  | inp
  /-- PUTSP, TRAP 0x24 (R174). -/
  | putsp
  /-- HALT, TRAP 0x25 (R173). -/
  | halt
  /-- The unrecognized opcode 1101 (R177). -/
  | unrecognized
deriving DecidableEq, Repr, Inhabited

end Sys2Proof
end

