-- ==== Sys2Proof/WellFormed.lean ====
section
/-! DEFINITION. Which instructions have a word of their own, and which are variants of the spec's own `Instr`. Every
field value of every constructor has a word; one shape has none, because one word has one decoded form: the BR whose word
would be 0x0000 is the end-of-program word (30_encoding.md R97). The machine gives it its meaning all the same. -/

namespace Sys2Proof

/-- `i` has a word of its own. -/
def Instr.wellFormed : Instr → Bool
  | .endOfProgram => true
  | .add _ _ _ => true
  | .addI _ _ _ => true
  | .and _ _ _ => true
  | .andI _ _ _ => true
  | .br nzp off9 => !(nzp == 0 && off9 == 0)
  | .jmp _ => true
  | .ret => true
  | .jsr _ => true
  | .jsrr _ => true
  | .ld _ _ => true
  | .ldi _ _ => true
  | .ldr _ _ _ => true
  | .lea _ _ => true
  | .not _ _ => true
  | .st _ _ => true
  | .sti _ _ => true
  | .str _ _ _ => true
  | .rti => true
  | .trap _ => true
  | .getc => true
  | .out => true
  | .puts => true
  | .inp => true
  | .putsp => true
  | .halt => true
  | .unrecognized => true

/-- `i` is one of the variants of the spec's own `Instr` (30_encoding.md R103), not one of the seven named words. -/
def Instr.isCore : Instr → Bool
  | .endOfProgram => true
  | .add _ _ _ => true
  | .addI _ _ _ => true
  | .and _ _ _ => true
  | .andI _ _ _ => true
  | .br _ _ => true
  | .jmp _ => true
  | .ret => false
  | .jsr _ => true
  | .jsrr _ => true
  | .ld _ _ => true
  | .ldi _ _ => true
  | .ldr _ _ _ => true
  | .lea _ _ => true
  | .not _ _ => true
  | .st _ _ => true
  | .sti _ _ => true
  | .str _ _ _ => true
  | .rti => true
  | .trap _ => true
  | .getc => false
  | .out => false
  | .puts => false
  | .inp => false
  | .putsp => false
  | .halt => false
  | .unrecognized => true

end Sys2Proof
end

