-- ==== Sys2Proof/Decode.lean ====
section
/-! DEFINITION. The decoder, total on all 65536 words, and after it the encoder. `decode` is the spec's own decode function
(30_encoding.md R104): "the decoder has no separate variant" for the named TRAP routines (46_system.md R176) and RET is
Jmp 7 (R103). The opcode table gives those seven words rows of their own; the constructors for these rows and how they
are related to the decoder's variants are at the end of the file (log 9). No word is rejected: "No encoding is illegal"
(R101). -/

namespace Sys2Proof

/-- The `len` bits of `w` from bit `lo` up, `w[lo+len-1 : lo]` (00_scope.md R10). -/
def field (w : Word) (lo len : Nat) : BitVec len := w.extractLsb' lo len

/-- A 3-bit field read as a register index (30_encoding.md R86): value i selects Ri. -/
def Reg.ofField (b : BitVec 3) : Reg :=
  match b.toNat with
  | 0 => .r0
  | 1 => .r1
  | 2 => .r2
  | 3 => .r3
  | 4 => .r4
  | 5 => .r5
  | 6 => .r6
  | _ => .r7

/-- The 3-bit index of a register (30_encoding.md R86). -/
def Reg.toField : Reg → BitVec 3
  | .r0 => 0
  | .r1 => 1
  | .r2 => 2
  | .r3 => 3
  | .r4 => 4
  | .r5 => 5
  | .r6 => 6
  | .r7 => 7

/-- The register in `w[11:9]`: DR or SR (30_encoding.md R85). -/
def regHigh (w : Word) : Reg := Reg.ofField (field w 9 3)

/-- The register in `w[8:6]`: SR1, BaseR or the source of NOT (R85). -/
def regMid (w : Word) : Reg := Reg.ofField (field w 6 3)

/-- The register in `w[2:0]`: SR2 (R85). -/
def regLow (w : Word) : Reg := Reg.ofField (field w 0 3)

/-- The decode function of 30_encoding.md R104. The last arm is the opcode 1111: the field has four bits. -/
def decode (w : Word) : Instr :=
  if w = 0x0000 then .endOfProgram
  else match (field w 12 4).toNat with
    | 0b0000 => .br (field w 9 3) (field w 0 9)
    | 0b0001 =>
      if field w 5 1 = 0 then .add (regHigh w) (regMid w) (regLow w) else .addI (regHigh w) (regMid w) (field w 0 5)
    | 0b0010 => .ld (regHigh w) (field w 0 9)
    | 0b0011 => .st (regHigh w) (field w 0 9)
    | 0b0100 => if field w 11 1 = 1 then .jsr (field w 0 11) else .jsrr (regMid w)
    | 0b0101 =>
      if field w 5 1 = 0 then .and (regHigh w) (regMid w) (regLow w) else .andI (regHigh w) (regMid w) (field w 0 5)
    | 0b0110 => .ldr (regHigh w) (regMid w) (field w 0 6)
    | 0b0111 => .str (regHigh w) (regMid w) (field w 0 6)
    | 0b1000 => .rti
    | 0b1001 => .not (regHigh w) (regMid w)
    | 0b1010 => .ldi (regHigh w) (field w 0 9)
    | 0b1011 => .sti (regHigh w) (field w 0 9)
    | 0b1100 => .jmp (regMid w)
    | 0b1101 => .unrecognized
    | 0b1110 => .lea (regHigh w) (field w 0 9)
    | _ => .trap (field w 0 8)

/-- The canonical word of an instruction: the formats of 30_encoding.md R75 to R84, with the bits no operand fills as
R124 gives them. R124 gives none for the unrecognized opcode 1101: its canonical word is 0xD000, the match of R177 with
the ignored bits zero (log 28). -/
def encode : Instr → Word
  | .endOfProgram => 0x0000
  | .add dr sr1 sr2 => 0b0001#4 ++ dr.toField ++ sr1.toField ++ 0#1 ++ 0b00#2 ++ sr2.toField
  | .addI dr sr1 imm5 => 0b0001#4 ++ dr.toField ++ sr1.toField ++ 1#1 ++ imm5
  | .and dr sr1 sr2 => 0b0101#4 ++ dr.toField ++ sr1.toField ++ 0#1 ++ 0b00#2 ++ sr2.toField
  | .andI dr sr1 imm5 => 0b0101#4 ++ dr.toField ++ sr1.toField ++ 1#1 ++ imm5
  | .br nzp off9 => 0b0000#4 ++ nzp ++ off9
  | .jmp base => 0b1100#4 ++ 0b000#3 ++ base.toField ++ 0b000000#6
  | .ret => 0xC1C0
  | .jsr off11 => 0b0100#4 ++ 1#1 ++ off11
  | .jsrr base => 0b0100#4 ++ 0#1 ++ 0b00#2 ++ base.toField ++ 0b000000#6
  | .ld dr off9 => 0b0010#4 ++ dr.toField ++ off9
  | .ldi dr off9 => 0b1010#4 ++ dr.toField ++ off9
  | .ldr dr base off6 => 0b0110#4 ++ dr.toField ++ base.toField ++ off6
  | .lea dr off9 => 0b1110#4 ++ dr.toField ++ off9
  | .not dr sr => 0b1001#4 ++ dr.toField ++ sr.toField ++ 0b111111#6
  | .st sr off9 => 0b0011#4 ++ sr.toField ++ off9
  | .sti sr off9 => 0b1011#4 ++ sr.toField ++ off9
  | .str sr base off6 => 0b0111#4 ++ sr.toField ++ base.toField ++ off6
  | .rti => 0x8000
  | .trap v => 0b1111#4 ++ 0b0000#4 ++ v
  | .getc => 0xF020
  | .out => 0xF021
  | .puts => 0xF022
  | .inp => 0xF023
  | .putsp => 0xF024
  | .halt => 0xF025
  | .unrecognized => 0xD000

/-! ### The seven rows that are other names of words (log 9) -/

/-- The variant of 30_encoding.md R103 an instruction stands for: RET is JMP R7 (42_control.md R155), the named routines
are TRAPs (46_system.md R176); every other instruction is itself. -/
def Instr.core : Instr → Instr
  | .ret => .jmp .r7
  | .getc => .trap 0x20
  | .out => .trap 0x21
  | .puts => .trap 0x22
  | .inp => .trap 0x23
  | .putsp => .trap 0x24
  | .halt => .trap 0x25
  | i => i

/-- The row of a JMP: the one through R7 has the row RET (42_control.md R155). -/
def nameJmp (base : Reg) : Instr := if base = .r7 then .ret else .jmp base

/-- The row of a TRAP word (30_encoding.md R123, 46_system.md R176). -/
def nameTrap (v : BitVec 8) : Instr :=
  match v.toNat with
  | 0x20 => .getc
  | 0x21 => .out
  | 0x22 => .puts
  | 0x23 => .inp
  | 0x24 => .putsp
  | 0x25 => .halt
  | _ => .trap v

/-- A decoded variant under the constructor of its row of the opcode table. -/
def Instr.named : Instr → Instr
  | .jmp base => nameJmp base
  | .trap v => nameTrap v
  | i => i

/-- What the decoder reads from a word given as the opcode table numbers its bits, under the constructor of its row
(log 9): `step` runs `decode` itself, and both forms have one meaning (obligation NamedWordsRunAsJmpAndTrap). Every
instruction is one 16-bit word (30_encoding.md R73), so the bits above `nbits` are zero and nothing longer than 16 bits is
an instruction. -/
def decodeTableWord (nbits w : Nat) : Option Instr :=
  if nbits ≤ 16 then some (decode (BitVec.ofNat 16 (w % 2 ^ nbits))).named else none

end Sys2Proof
end

