-- ==== Sys2Proof/Config.lean ====
section
/-! DEFINITION. The parameters of the block that the spec leaves open (00_scope.md R8) and the value the model names
for the caller-given start address. A parameter that a step reads is a constant without a body, so that nothing proved
about the model can depend on its value. `P_MEM_INIT`, `P_LOAD_BASE`, `P_MEM_IMAGE` and `P_REG_IMAGE` are arguments of
`Machine.init`; the four assembler parameters are arguments of `Machine.assemble`. -/

namespace Sys2Proof

/-- The two values of `P_ZERO_HALT_PC` (R133, D8). -/
inductive ZeroHaltPc where
  /-- The pc after a zero-word halt is A + 1. -/
  | incremented
  /-- The pc after a zero-word halt is A. -/
  | unchanged
deriving DecidableEq, Repr, Inhabited

/-- `P_ZERO_HALT_PC`: OPEN (D8), so a value nothing can see (log 6). -/
opaque Config.zeroHaltPc : ZeroHaltPc

/-- `P_JSRR_LINK_FIRST`: OPEN (D7), so a value nothing can see (log 5). -/
opaque Config.jsrrLinkFirst : Bool

/-- The value the I/O collaborator returns in R0 for GETC and IN (60_exceptions.md R186: "free ... a drawn value").
`draw` numbers the drawn values of a run; the other arguments are what the block hands over, the vector and its whole
state (10_state.md R51): the registers R0..R7, the pc, cc and memory (log 7). -/
opaque Config.serviceInput (draw : Nat) (vector : BitVec 8) (x : List Word) (pc : Word) (cc : BitVec 3)
    (mem : List (Nat × Word)) : Word

/-- DESIGN CHOICE, unsafe (log 1): the start address of `State.reset`. The spec gives `P_START_PC` no default (R8);
0x3000 is the start address of its own vectors (95_test_vectors.md V77). `Machine.init` takes any start address. -/
def Config.resetPc : Word := 0x3000

end Sys2Proof
end

