-- ==== Sys2Proof/Machine/State.lean ====
section
/-! DEFINITION. The state of the block (10_state.md R25 to R45), the reasons a step can stop, and the state after
reset. -/

namespace Sys2Proof.Machine

/-- The register file R0..R7 (10_state.md R25). -/
structure Regs where
  r0 : Word
  r1 : Word
  r2 : Word
  r3 : Word
  r4 : Word
  r5 : Word
  r6 : Word
  r7 : Word
deriving DecidableEq, Repr

/-- The 65536 words of memory (20_memory.md R53), as the words that differ from 0x0000, keyed by word address; an
address that is not listed holds 0x0000. The addressable unit is the 16-bit word (R54), so a cell is a word (log 3).
Every content of memory has exactly one such list with `Memory.wf`. -/
abbrev Memory := List (Nat × Word)

/-- The word of an address that is not listed (log 2). -/
def Memory.unlisted : Word := 0x0000

/-- The keys of the list rise strictly from `least` on. -/
def Memory.risesFrom : Nat → Memory → Bool
  | _, [] => true
  | least, (a, _) :: rest => decide (least ≤ a) && Memory.risesFrom (a + 1) rest

/-- The canonical form: addresses strictly rising, all below 65536, and no entry equal to what an unlisted address
holds. -/
def Memory.wf (m : Memory) : Bool :=
  Memory.risesFrom 0 m && m.all fun e => decide (e.1 < 65536) && e.2 != Memory.unlisted

/-- The two events that halt the block (10_state.md R41). -/
inductive HaltCause where
  /-- ZERO_WORD: the fetched word was 0x0000 (R133). -/
  | zeroWord
  /-- TRAP_HALT: TRAP vector 0x25 (R173). -/
  | trapHalt
deriving DecidableEq, Repr

/-- The run status (10_state.md R40, R44). -/
inductive RunStatus where
  | running
  | halted (cause : HaltCause)
deriving DecidableEq, Repr

/-- All the state of the block: "No state other than x, pc, cc, mem and run exists" (10_state.md R42), and beside it
`draws`, the model's own field. -/
structure State where
  /-- General registers (R25). -/
  regs : Regs
  /-- Program counter (R30). -/
  pc : Word
  /-- Condition code: bit 2 = N, bit 1 = Z, bit 0 = P (R33). -/
  cc : BitVec 3
  /-- Memory (R39). -/
  mem : Memory
  /-- Run status (R40). -/
  run : RunStatus
  /-- THE MODEL'S OWN: how many values the I/O collaborator has drawn so far (log 7, log 8). -/
  draws : Nat
deriving DecidableEq, Repr

/-- The reasons a step does not exist. -/
inductive Fault where
  /-- Raised by `step` alone, when the run status is HALTED: "In state HALTED the block has no step"
  (40_fetch_decode.md R130). A stuck state; safe (log 10). -/
  | halted (cause : HaltCause)
deriving DecidableEq, Repr

/-- The reasons a step has no meaning. -/
inductive Refusal where
  /-- Raised by `exec` for an instruction without a meaning; no arm of this model raises it. Safe. -/
  | notModelled (mnemonic : String)
  /-- Raised by `acceptService` when the I/O collaborator did something 60_exceptions.md R186 does not admit
  (00_scope.md R16). Safe. The model's own collaborator stays inside the bound, so no step raises it. -/
  | serviceOutsideBound
deriving DecidableEq, Repr

/-- What a step or a meaning answers. -/
abbrev Result := Host.Outcome State Fault Refusal

/-- The registers after an initialization without a register image: all 0x0000 (10_state.md R45). -/
def Regs.zero : Regs := ⟨0, 0, 0, 0, 0, 0, 0, 0⟩

/-- The state after an initialization without images (10_state.md R45): registers 0x0000, cc 000, RUNNING. The start
address (log 1), the content of memory (log 2) and `draws` (log 8) are the model's choices. -/
def State.reset : State :=
  { regs := Regs.zero, pc := Config.resetPc, cc := 0b000, mem := [], run := .running, draws := 0 }

end Sys2Proof.Machine
end

