-- ==== Sys2Proof/Machine/Ops.lean ====
section
/-! DEFINITION. The operations every instruction is made of: one home for the registers, for memory and for the halt.
The hardware takes no exception and no interrupt (60_exceptions.md R181, R183): the one event a handler can raise is
the halt, so `State.haltWith` stands where another machine has its exception entry, and RTI, the return instruction,
"restores nothing" (R185; log 20). -/

namespace Sys2Proof.Machine

/-- Read of a general register, `x[i]` (00_scope.md R10). No register is hard-wired (10_state.md R25). -/
def Regs.read (x : Regs) : Reg → Word
  | .r0 => x.r0
  | .r1 => x.r1
  | .r2 => x.r2
  | .r3 => x.r3
  | .r4 => x.r4
  | .r5 => x.r5
  | .r6 => x.r6
  | .r7 => x.r7

/-- Write of a general register, `x[i] <- v` (00_scope.md R10). -/
def Regs.write (x : Regs) (r : Reg) (v : Word) : Regs :=
  match r with
  | .r0 => { x with r0 := v }
  | .r1 => { x with r1 := v }
  | .r2 => { x with r2 := v }
  | .r3 => { x with r3 := v }
  | .r4 => { x with r4 := v }
  | .r5 => { x with r5 := v }
  | .r6 => { x with r6 := v }
  | .r7 => { x with r7 := v }

/-- The eight registers in order, as the block hands them to the I/O collaborator (10_state.md R51). -/
def Regs.toList (x : Regs) : List Word := [x.r0, x.r1, x.r2, x.r3, x.r4, x.r5, x.r6, x.r7]

def State.readReg (s : State) (r : Reg) : Word := s.regs.read r

def State.writeReg (s : State) (r : Reg) (v : Word) : State := { s with regs := s.regs.write r v }

/-- Write of the program counter, `pc <- t` (00_scope.md R10). -/
def State.setPc (s : State) (t : Word) : State := { s with pc := t }

/-- The word under key `a` in a memory list. -/
def Memory.lookup : Memory → Nat → Word
  | [], _ => Memory.unlisted
  | (k, v) :: rest, a => if k = a then v else Memory.lookup rest a

/-- `v` listed under `a` at its place in a memory list that does not list `a`. -/
def Memory.insert : Memory → Nat → Word → Memory
  | [], a, v => [(a, v)]
  | (k, u) :: rest, a, v => if a < k then (a, v) :: (k, u) :: rest else (k, u) :: Memory.insert rest a v

/-- `MemRead(a, 1)`: total over all 16-bit addresses (20_memory.md R55). -/
def Memory.read (m : Memory) (a : Word) : Word := Memory.lookup m a.toNat

/-- `MemWrite(a, 1, v)` (20_memory.md R55), kept in canonical form. -/
def Memory.write (m : Memory) (a : Word) (v : Word) : Memory :=
  let others := m.filter fun e => decide (e.1 ≠ a.toNat)
  if v = Memory.unlisted then others else Memory.insert others a.toNat v

def State.memRead (s : State) (a : Word) : Word := s.mem.read a

def State.memWrite (s : State) (a : Word) (v : Word) : State := { s with mem := s.mem.write a v }

/-- Fetch: the word at the current pc, from the memory loads and stores use (40_fetch_decode.md R131). -/
def State.fetch (s : State) : Word := s.memRead s.pc

/-- `pc <- pc + 1` modulo 2^16, between the fetch and the handler (40_fetch_decode.md R132). -/
def State.advance (s : State) : State := s.setPc (s.pc + 1)

/-- `halt(cause)` (10_state.md R41). -/
def State.haltWith (s : State) (c : HaltCause) : State := { s with run := .halted c }

/-- Go on from a next state; a fault or a refusal stays one. -/
def andThen (o : Result) (f : State → Result) : Result :=
  match o with
  | .next s => f s
  | .fault r => .fault r
  | .refused r => .refused r

end Sys2Proof.Machine
end

