-- ==== Sys2Proof/Machine/Flags.lean ====
section
/-! DEFINITION. The condition code: its update, shared by every condition-affecting instruction
(40_fetch_decode.md R139, R140), and its test by BR (42_control.md R153). -/

namespace Sys2Proof.Machine

/-- The condition code of a value compared "as signed 16-bit quantities" (40_fetch_decode.md R140). -/
def ccOf (v : Word) : BitVec 3 :=
  if v.msb then 0b100
  else if v = 0x0000 then 0b010
  else 0b001

/-- `SetCC(v)` (40_fetch_decode.md R140). -/
def State.setCC (s : State) (v : Word) : State := { s with cc := ccOf v }

/-- `x[DR] <- v; SetCC(v)`: the last two lines of every condition-affecting handler. -/
def State.writeResult (s : State) (dr : Reg) (v : Word) : State := (s.writeReg dr v).setCC v

/-- "the condition mask intersects the current condition state" (42_control.md R153). -/
def branchTaken (nzp cc : BitVec 3) : Bool := nzp &&& cc != 0

end Sys2Proof.Machine
end

