-- ==== Sys2Proof/Machine/Operands.lean ====
section
/-! DEFINITION. Operand forms and effective addresses (30_encoding.md R87 to R93). On entry to a handler the pc is
already A + 1 (40_fetch_decode.md R132). -/

namespace Sys2Proof.Machine

/-- `sext_16(v)`: the sign bit of `v` copied into every higher bit (00_scope.md R10, R13). -/
def sext {n : Nat} (v : BitVec n) : Word := v.signExtend 16

/-- Second operand of ADD and AND in register mode: `x[SR2]` (30_encoding.md R93). -/
def operandReg (s : State) (sr2 : Reg) : Word := s.readReg sr2

/-- Second operand of ADD and AND in immediate mode: `sext_16(imm5)` (30_encoding.md R87, R93). -/
def operandImm (imm5 : BitVec 5) : Word := sext imm5

/-- `pc + sext_16(offset)` modulo 2^16: PC-relative targets and addresses (30_encoding.md R89, R90; 00_scope.md R12). -/
def pcRelative {n : Nat} (s : State) (off : BitVec n) : Word := s.pc + sext off

/-- `x[BaseR] + sext_16(offset6)` modulo 2^16, not scaled (30_encoding.md R88). -/
def basePlus (s : State) (base : Reg) (off6 : BitVec 6) : Word := s.readReg base + sext off6

/-- The pointer of LDI and STI: the word at the PC-relative address, read as an unsigned address (43_load.md R161). -/
def pointer (s : State) (off9 : BitVec 9) : Word := s.memRead (pcRelative s off9)

end Sys2Proof.Machine
end

