-- ==== Sys2Proof/Machine/AddAnd.lean ====
section
/-! DEFINITION. ADD and AND (41_add_and.md). -/

namespace Sys2Proof.Machine

/-- ADD, register mode (R147). -/
def execAdd (dr sr1 sr2 : Reg) (s : State) : Result :=
  .next (s.writeResult dr (s.readReg sr1 + operandReg s sr2))

/-- ADD, immediate mode (R148). -/
def execAddI (dr sr1 : Reg) (imm5 : BitVec 5) (s : State) : Result :=
  .next (s.writeResult dr (s.readReg sr1 + operandImm imm5))

/-- AND, register mode (R149). -/
def execAnd (dr sr1 sr2 : Reg) (s : State) : Result :=
  .next (s.writeResult dr (s.readReg sr1 &&& operandReg s sr2))

/-- AND, immediate mode (R150). -/
def execAndI (dr sr1 : Reg) (imm5 : BitVec 5) (s : State) : Result :=
  .next (s.writeResult dr (s.readReg sr1 &&& operandImm imm5))

end Sys2Proof.Machine
end

