-- ==== Sys2Proof/Machine/Control.lean ====
section
/-! DEFINITION. Control transfer (42_control.md): BR, JMP, RET, JSR, JSRR. -/

namespace Sys2Proof.Machine

/-- BR (R153). -/
def execBr (nzp : BitVec 3) (off9 : BitVec 9) (s : State) : Result :=
  .next (if branchTaken nzp s.cc then s.setPc (pcRelative s off9) else s)

/-- `pc <- x[base]`, the jump of JMP and RET. -/
def jumpThrough (base : Reg) (s : State) : Result := .next (s.setPc (s.readReg base))

/-- JMP (R154). -/
def execJmp (base : Reg) (s : State) : Result := jumpThrough base s

/-- RET: `pc <- x[7]` (R155). -/
def execRet (s : State) : Result := jumpThrough .r7 s

/-- `x[7] <- pc`: the return address A + 1 into register 7 (R156, R157, 10_state.md R28). -/
def State.link (s : State) : State := s.writeReg .r7 s.pc

/-- JSR (R156). cc is not updated (D26). -/
def execJsr (off11 : BitVec 11) (s : State) : Result := .next (s.link.setPc (pcRelative s off11))

/-- The base register as JSRR reads it: R7 is read after the link write where `P_JSRR_LINK_FIRST`, before it otherwise;
the order cannot show in another register (R157). -/
def jsrrTarget (linkFirst : Bool) (base : Reg) (s : State) : Word :=
  if base = .r7 then (if linkFirst then s.link.readReg .r7 else s.readReg .r7) else s.readReg base

/-- JSRR (R157). cc is not updated (D26). -/
def execJsrr (base : Reg) (s : State) : Result := .next (s.link.setPc (jsrrTarget Config.jsrrLinkFirst base s))

end Sys2Proof.Machine
end

