-- ==== Sys2Proof/Machine/Load.lean ====
section
/-! DEFINITION. Loads and address computation (43_load.md): LD, LDI, LDR, LEA. -/

namespace Sys2Proof.Machine

/-- LD (R160). -/
def execLd (dr : Reg) (off9 : BitVec 9) (s : State) : Result :=
  .next (s.writeResult dr (s.memRead (pcRelative s off9)))

/-- LDI (R161): one level of indirection. -/
def execLdi (dr : Reg) (off9 : BitVec 9) (s : State) : Result :=
  .next (s.writeResult dr (s.memRead (pointer s off9)))

/-- LDR (R162). -/
def execLdr (dr base : Reg) (off6 : BitVec 6) (s : State) : Result :=
  .next (s.writeResult dr (s.memRead (basePlus s base off6)))

/-- LEA (R163): no memory access; cc is set from the address. -/
def execLea (dr : Reg) (off9 : BitVec 9) (s : State) : Result := .next (s.writeResult dr (pcRelative s off9))

end Sys2Proof.Machine
end

