-- ==== Sys2Proof/Machine/Not.lean ====
section
/-! DEFINITION. NOT (44_not.md). -/

namespace Sys2Proof.Machine

/-- NOT (R165). -/
def execNot (dr sr : Reg) (s : State) : Result := .next (s.writeResult dr (~~~ s.readReg sr))

end Sys2Proof.Machine
end

