-- ==== Sys2Proof/Machine/Store.lean ====
section
/-! DEFINITION. Stores (45_store.md): ST, STI, STR. No store writes a register or cc (R170). -/

namespace Sys2Proof.Machine

/-- ST (R167). -/
def execSt (sr : Reg) (off9 : BitVec 9) (s : State) : Result :=
  .next (s.memWrite (pcRelative s off9) (s.readReg sr))

/-- STI (R168): one level of indirection. -/
def execSti (sr : Reg) (off9 : BitVec 9) (s : State) : Result := .next (s.memWrite (pointer s off9) (s.readReg sr))

/-- STR (R169). -/
def execStr (sr base : Reg) (off6 : BitVec 6) (s : State) : Result :=
  .next (s.memWrite (basePlus s base off6) (s.readReg sr))

end Sys2Proof.Machine
end

