-- ==== Sys2Proof/Machine/System.lean ====
section
/-! DEFINITION. System instructions (46_system.md) and the end-of-program word (40_fetch_decode.md R133): RTI, TRAP and
its named routines, the unrecognized opcode. The I/O collaborator of TRAP is `P_TRAP_SERVICE`, bounded by
60_exceptions.md R186. -/

namespace Sys2Proof.Machine

/-- The vectors for which the block calls the I/O collaborator: 0x20..0x25 (46_system.md R172, D11). -/
def recognizedVector (v : BitVec 8) : Bool := decide (0x20 ≤ v.toNat ∧ v.toNat ≤ 0x25)

/-- GETC (0x20) and IN (0x23), the two routines that may write R0 (60_exceptions.md R186). -/
def drawsInput (v : BitVec 8) : Bool := v == 0x20 || v == 0x23

/-- `P_TRAP_SERVICE(v, s, s')` admits `s'` at most when this holds: the bound of 60_exceptions.md R186, clause by
clause. -/
def serviceAdmits (v : BitVec 8) (s s' : State) : Bool :=
  decide (s'.pc = s.pc) && decide (s'.run = s.run) && decide (s'.cc = s.cc)
    && [Reg.r1, .r2, .r3, .r4, .r5, .r6, .r7].all (fun r => decide (s'.readReg r = s.readReg r))
    && decide (s'.mem = s.mem)
    && (drawsInput v || decide (s'.readReg .r0 = s.readReg .r0))

/-- The value the collaborator returns for GETC and IN: free (log 7). -/
def serviceValue (v : BitVec 8) (s : State) : Word :=
  Config.serviceInput s.draws v s.regs.toList s.pc s.cc s.mem

/-- What the I/O collaborator does to the state (60_exceptions.md R186): GETC and IN write a free value to R0, the
other routines change nothing. Characters it prints are not state of the block. -/
def collaborator (v : BitVec 8) (s : State) : State :=
  if drawsInput v then { s.writeReg .r0 (serviceValue v s) with draws := s.draws + 1 } else s

/-- The block goes on with the state it gets back if the bound of R186 admits it, and refuses the step otherwise
(60_exceptions.md R186, 00_scope.md R16). -/
def acceptService (v : BitVec 8) (s reply : State) : Result :=
  if serviceAdmits v s reply then .next reply else .refused .serviceOutsideBound

/-- `s <- TrapService(v, s)` (46_system.md R172). -/
def trapService (v : BitVec 8) (s : State) : Result := acceptService v s (collaborator v s)

/-- `pc <- 0x0000; halt(TRAP_HALT)` (46_system.md R173). -/
def State.haltSentinel (s : State) : State := (s.setPc 0x0000).haltWith .trapHalt

/-- The TRAP handler (46_system.md R172 to R175). -/
def trapCall (v : BitVec 8) (s : State) : Result :=
  if recognizedVector v then
    andThen (trapService v s) fun t => .next (if v = 0x25 then t.haltSentinel else t)
  else .next s

/-- TRAP (R172). -/
def execTrap (v : BitVec 8) (s : State) : Result := trapCall v s

/-- GETC, TRAP 0x20 (R174). -/
def execGetc (s : State) : Result := trapCall 0x20 s

/-- OUT, TRAP 0x21 (R174). -/
def execOut (s : State) : Result := trapCall 0x21 s

/-- PUTS, TRAP 0x22 (R174). -/
def execPuts (s : State) : Result := trapCall 0x22 s

/-- IN, TRAP 0x23 (R174). -/
def execInp (s : State) : Result := trapCall 0x23 s

/-- PUTSP, TRAP 0x24 (R174). -/
def execPutsp (s : State) : Result := trapCall 0x24 s

/-- HALT, TRAP 0x25 (R173). -/
def execHalt (s : State) : Result := trapCall 0x25 s

/-- RTI: "nothing: only the pc increment of the step" (R171). -/
def execRti (s : State) : Result := .next s

/-- Opcode 1101: "handled as RTI: nothing but pc = A + 1" (R177). -/
def execUnrecognized (s : State) : Result := .next s

/-- The pc after a zero-word halt, where the incremented pc is `s.pc` = A + 1 (R133). -/
def zeroHaltTarget (p : ZeroHaltPc) (s : State) : Word :=
  match p with
  | .incremented => s.pc
  | .unchanged => s.pc - 1

/-- The all-zero word: no handler, `halt(ZERO_WORD)`, no register, cc or memory written (R133). -/
def execEndOfProgram (s : State) : Result :=
  .next ((s.setPc (zeroHaltTarget Config.zeroHaltPc s)).haltWith .zeroWord)

end Sys2Proof.Machine
end

