-- ==== Sys2Proof/Machine/Step.lean ====
section
/-! DEFINITION. One step (`NextStep`, 40_fetch_decode.md R129) and the placing of one instruction where the next step
fetches. -/

namespace Sys2Proof.Machine

/-- `NextStep`: in state HALTED no step exists (R130); otherwise fetch (R131), increment (R132), decode and run one
handler (R135). The zero-word test of R133 is the decoder's first line. -/
def step (s : State) : Host.Outcome State Fault Refusal :=
  match s.run with
  | .halted c => .fault (.halted c)
  | .running => exec (decode s.fetch) s.advance

/-- `s` with the word stored at the pc and the block RUNNING, so that the next step fetches and runs it (log 17). -/
def State.withFetchWord (s : State) (nbits w : Nat) : State :=
  { s.memWrite s.pc (BitVec.ofNat 16 (w % 2 ^ nbits)) with run := .running }

end Sys2Proof.Machine
end

