-- ==== Sys2Proof/Machine/Text.lean ====
section
/-! DEFINITION. Characters, tokens, numbers and the text forms of a word (20_memory.md R58, 30_encoding.md R113, R127).
Text is a list of characters. -/

namespace Sys2Proof.Machine

/-- A word of source or image text between separators. -/
abbrev Token := List Char

/-- White space: blank, tab, line feed, vertical tab, form feed, carriage return (log 13). -/
def isSpace (c : Char) : Bool := c == ' ' || (9 ≤ c.toNat && c.toNat ≤ 13)

/-- The tokens of a text, whitespace-delimited; `cur` is the token being read. -/
def tokensFrom (cur : Token) : List Char → List Token
  | [] => if cur.isEmpty then [] else [cur]
  | c :: cs =>
    if isSpace c then (if cur.isEmpty then tokensFrom [] cs else cur :: tokensFrom [] cs)
    else tokensFrom (cur ++ [c]) cs

/-- The whitespace-delimited tokens of a text. -/
def tokens (cs : List Char) : List Token := tokensFrom [] cs

/-- The value of a digit below `base`, upper-case letters from ten up. -/
def digitValue (base : Nat) (c : Char) : Option Nat :=
  let n := c.toNat
  let d := if 48 ≤ n ∧ n ≤ 57 then n - 48 else if 65 ≤ n ∧ n ≤ 90 then n - 55 else base
  if d < base then some d else none

/-- The digits of a text after a number already read. -/
def digitsFrom (base : Nat) (acc : Nat) : List Char → Option Nat
  | [] => some acc
  | c :: cs =>
    match digitValue base c with
    | some d => digitsFrom base (acc * base + d) cs
    | none => none

/-- A number in the given base: at least one digit and nothing else. -/
def parseNat (base : Nat) (cs : List Char) : Option Nat :=
  if cs.isEmpty then none else digitsFrom base 0 cs

/-- A decimal integer, optionally negative. -/
def parseDecimal : List Char → Option Int
  | '-' :: ds => (parseNat 10 ds).map fun n => -(n : Int)
  | ds => (parseNat 10 ds).map fun n => (n : Int)

/-- A line of a memory image: 16 characters `0` or `1`, bit 15 first (20_memory.md R58, 70_reset_and_hazards.md R198);
any other line is no word (R200). -/
def parseBits (cs : List Char) : Option Word :=
  if cs.length = 16 then (digitsFrom 2 0 cs).map (BitVec.ofNat 16) else none

/-- One bit as a character. -/
def bitChar (b : Bool) : Char := if b then '1' else '0'

/-- "a 16-character string of 0/1", bit 15 first (30_encoding.md R127). -/
def renderBits (w : Word) : List Char := (List.range 16).map fun i => bitChar (w.getLsbD (15 - i))

/-- The hexadecimal digit of a nibble, upper case (30_encoding.md R127). -/
def hexChar (n : BitVec 4) : Char := if n.toNat < 10 then Char.ofNat (48 + n.toNat) else Char.ofNat (55 + n.toNat)

/-- "a 4-character uppercase hexadecimal string", each nibble mapped independently, first digit bits [15:12]. -/
def renderHex (w : Word) : List Char :=
  [hexChar (field w 12 4), hexChar (field w 8 4), hexChar (field w 4 4), hexChar (field w 0 4)]

/-- The four characters of a hexadecimal digit, high bit first. -/
def nibbleBits (d : Nat) : List Char := (List.range 4).map fun i => bitChar ((BitVec.ofNat 4 d).getLsbD (3 - i))

/-- A hexadecimal line as a binary line, "mapping each 4-bit nibble independently" (70_reset_and_hazards.md R206). -/
def hexLineToBinary : List Char → Option (List Char)
  | [] => some []
  | c :: cs =>
    match digitValue 16 c, hexLineToBinary cs with
    | some d, some rest => some (nibbleBits d ++ rest)
    | _, _ => none

end Sys2Proof.Machine
end

