-- ==== Sys2Proof/Machine/AsmText.lean ====
section
/-! DEFINITION. The assembler contract, text side (30_encoding.md R108 to R114, R119 to R121): line normalisation,
mnemonics, directives, labels, literals. In scope as the contract that fixes which words reach memory (00_scope.md R5);
no part of it is state of the block (10_state.md R43). Tokens are compared after line normalisation, in upper case. -/

namespace Sys2Proof.Machine

/-- `P_STRINGZ_CASE` (D23). -/
inductive StringzCase where
  | asWritten
  | normalised
deriving DecidableEq, Repr

/-- `P_BAD_REGISTER` (D27). -/
inductive BadRegister where
  | truncate
  | refuse
deriving DecidableEq, Repr

/-- `P_DUP_LABEL` (D29). -/
inductive DupLabel where
  | first
  | last
deriving DecidableEq, Repr

/-- The assembler parameters the spec leaves open (00_scope.md R8). -/
structure AsmParams where
  /-- `P_UNKNOWN_LINE`: the output line of an unknown mnemonic (D22). -/
  unknownLine : List Char
  stringzCase : StringzCase
  badRegister : BadRegister
  dupLabel : DupLabel
deriving DecidableEq, Repr

/-- Upper case of a letter; every other character is itself. -/
def upper (c : Char) : Char := if 97 ≤ c.toNat ∧ c.toNat ≤ 122 then Char.ofNat (c.toNat - 32) else c

/-- A comma separates operands as white space does (R108). -/
def isSeparator (c : Char) : Bool := isSpace c || c == ','

/-- "strip comments (text from ; to end of line)" (R108). -/
def stripComment (line : List Char) : List Char := line.takeWhile (· != ';')

/-- Leading and trailing separators removed (R108). -/
def trim (cs : List Char) : List Char := ((cs.dropWhile isSeparator).reverse.dropWhile isSeparator).reverse

/-- Line normalisation (R108): comments stripped, upper case, commas to blanks, trimmed. -/
def normalise (line : List Char) : List Char :=
  trim ((stripComment line).map fun c => if c == ',' then ' ' else upper c)

/-- The assembler's mnemonics (R119): the BR variants carry their mask (R121), the named trap routines their vector
(R123). -/
inductive Mnemonic where
  | add | and | br (nzp : BitVec 3) | jmp | jsr | jsrr | ld | ldi | ldr | lea | not | st | sti | str | ret | rti | trap
  | routine (vect8 : BitVec 8)
deriving DecidableEq, Repr

/-- The mnemonic table (R119, R121, R123). -/
def mnemonicTable : List (Token × Mnemonic) :=
  [ (['A', 'D', 'D'], .add), (['A', 'N', 'D'], .and), (['N', 'O', 'T'], .not),
    (['B', 'R'], .br 0b111), (['B', 'R', 'N'], .br 0b100), (['B', 'R', 'Z'], .br 0b010), (['B', 'R', 'P'], .br 0b001),
    (['B', 'R', 'N', 'Z'], .br 0b110), (['B', 'R', 'N', 'P'], .br 0b101), (['B', 'R', 'Z', 'P'], .br 0b011),
    (['B', 'R', 'N', 'Z', 'P'], .br 0b111),
    (['J', 'M', 'P'], .jmp), (['J', 'S', 'R'], .jsr), (['J', 'S', 'R', 'R'], .jsrr), (['R', 'E', 'T'], .ret),
    (['R', 'T', 'I'], .rti),
    (['L', 'D'], .ld), (['L', 'D', 'I'], .ldi), (['L', 'D', 'R'], .ldr), (['L', 'E', 'A'], .lea),
    (['S', 'T'], .st), (['S', 'T', 'I'], .sti), (['S', 'T', 'R'], .str),
    (['T', 'R', 'A', 'P'], .trap), (['G', 'E', 'T', 'C'], .routine 0x20), (['O', 'U', 'T'], .routine 0x21),
    (['P', 'U', 'T', 'S'], .routine 0x22), (['I', 'N'], .routine 0x23), (['P', 'U', 'T', 'S', 'P'], .routine 0x24),
    (['H', 'A', 'L', 'T'], .routine 0x25) ]

/-- The directives (R110, R112). -/
inductive Directive where
  | orig | finish | fill | blkw | stringz
deriving DecidableEq, Repr

def directiveTable : List (Token × Directive) :=
  [ (['.', 'O', 'R', 'I', 'G'], .orig), (['.', 'E', 'N', 'D'], .finish), (['.', 'F', 'I', 'L', 'L'], .fill),
    (['.', 'B', 'L', 'K', 'W'], .blkw), (['.', 'S', 'T', 'R', 'I', 'N', 'G', 'Z'], .stringz) ]

/-- What a token listed in a table stands for. -/
def lookupToken {α : Type} : List (Token × α) → Token → Option α
  | [], _ => none
  | (k, a) :: rest, t => if k = t then some a else lookupToken rest t

/-- "a recognized opcode, pseudo-op, or trap mnemonic" (R109). -/
def recognizedToken (t : Token) : Bool :=
  (lookupToken mnemonicTable t).isSome || (lookupToken directiveTable t).isSome

/-- An immediate literal (R113): `#` and a decimal integer, optionally negative; otherwise hexadecimal digits with an
optional leading X (D20). -/
def parseLiteral : Token → Option Int
  | '#' :: ds => parseDecimal ds
  | 'X' :: ds => (parseNat 16 ds).map fun n => (n : Int)
  | ds => (parseNat 16 ds).map fun n => (n : Int)

/-- The text after the first `n` tokens. -/
def afterTokens : Nat → List Char → List Char
  | 0, cs => cs
  | n + 1, cs => afterTokens n ((cs.dropWhile isSeparator).dropWhile fun c => !isSeparator c)

/-- The operand of `.STRINGZ` with its two quote characters, after `n` tokens of the line: the rest of the line, which
begins and ends with a quote (log 14). -/
def quotedText (n : Nat) (cs : List Char) : Option (List Char) :=
  let text := trim (afterTokens n cs)
  if 2 ≤ text.length ∧ text.head? = some '"' ∧ text.getLast? = some '"' then some text else none

/-- The body of a source line after its label. -/
inductive Body where
  /-- No instruction: a blank line, or a label alone (R108, R109). -/
  | nothing
  | instruction (m : Mnemonic) (operands : List Token)
  | orig (operands : List Token)
  /-- `.END`, whatever follows it on the line (log 21). -/
  | finish
  | fill (operands : List Token)
  | blkw (operands : List Token)
  /-- `.STRINGZ` and its operand with the quotes; `none` if it is not quoted text. -/
  | stringz (text : Option (List Char))
  /-- An unknown opcode (R126). -/
  | unknown
deriving DecidableEq, Repr

/-- A source line: the label it records, and its body. -/
structure SourceLine where
  label : Option Token
  body : Body
deriving DecidableEq, Repr

/-- The text `.STRINGZ` takes its characters from, by `P_STRINGZ_CASE` (D23). -/
def stringzSource (p : AsmParams) (line : List Char) : List Char :=
  match p.stringzCase with
  | .asWritten => stripComment line
  | .normalised => normalise line

/-- The body made of the tokens after the label; `skipped` tokens of the line stand before its operands.
Operands after `.END` are dropped (log 21). -/
def parseBody (p : AsmParams) (line : List Char) (skipped : Nat) : List Token → Body
  | [] => .nothing
  | t :: ops =>
    match lookupToken mnemonicTable t, lookupToken directiveTable t with
    | some m, _ => .instruction m ops
    | none, some .orig => .orig ops
    | none, some .finish => .finish
    | none, some .fill => .fill ops
    | none, some .blkw => .blkw ops
    | none, some .stringz => .stringz (quotedText skipped (stringzSource p line))
    | none, none => .unknown

/-- A source line read as R108 and R109 say: "If the first token is not a recognized opcode, pseudo-op, or trap
mnemonic, treat it as a label". -/
def parseLine (p : AsmParams) (line : List Char) : SourceLine :=
  match tokens (normalise line) with
  | [] => { label := none, body := .nothing }
  | t :: ts =>
    if recognizedToken t then { label := none, body := parseBody p line 1 (t :: ts) }
    else { label := some t, body := parseBody p line 2 ts }

end Sys2Proof.Machine
end

