-- ==== Sys2Proof/Machine/Init.lean ====
section
/-! DEFINITION. Initialization (10_state.md R47, 70_reset_and_hazards.md R197 to R203): the memory image, the register
image, the start address, and the ways it does not complete. -/

namespace Sys2Proof.Machine

/-- An optional input of `Init`: absent, present, or present but impossible to open (R200, R202). -/
inductive Source (α : Type) where
  | absent
  | unreadable
  | present (a : α)
deriving DecidableEq, Repr

/-- Why an initialization does not complete: no state results (60_exceptions.md R182). -/
inductive InitFailure where
  /-- The memory-image source cannot be opened (R200). -/
  | memoryImageUnreadable
  /-- A line of the memory image is not 16 characters of `0` and `1` (R200, D15). -/
  | memoryImageMalformed
  /-- The register-image source cannot be opened (R202). -/
  | registerImageUnreadable
  /-- A token of the register image is not a decimal integer (R201, D14). -/
  | registerImageMalformed
deriving DecidableEq, Repr

/-- What the caller hands to `Init` (10_state.md R46), with the content of memory before the image is loaded. -/
structure InitRequest where
  /-- `P_START_PC`. -/
  startPc : Word
  /-- `P_MEM_INIT`: OPEN (D13), any content. -/
  memInit : Word → Word
  /-- `P_MEM_IMAGE` as the text it is loaded from, one line a word (R198). -/
  memImage : Source (List (List Char))
  /-- `P_LOAD_BASE`. -/
  loadBase : Word
  /-- `P_REG_IMAGE` as the text it is loaded from (R201). -/
  regImage : Source (List Char)

/-- The canonical memory that holds `f` at the first `n` addresses. Irreducible so that elaboration never lists 65536
addresses. -/
@[irreducible] def Memory.tabulate (f : Word → Word) (n : Nat) : Memory :=
  (List.range n).filterMap fun a =>
    if f (BitVec.ofNat 16 a) = Memory.unlisted then none else some (a, f (BitVec.ofNat 16 a))

/-- A memory of any content, in canonical form. -/
def Memory.ofFun (f : Word → Word) : Memory := Memory.tabulate f 65536

/-- The words of a memory image; none if a line is malformed. -/
def parseLines : List (List Char) → Option (List Word)
  | [] => some []
  | l :: ls =>
    match parseBits l, parseLines ls with
    | some w, some ws => some (w :: ws)
    | _, _ => none

/-- Words at successive addresses from `a` on, wrapping from 0xFFFF to 0x0000 (R199). -/
def loadWords (m : Memory) (a : Word) : List Word → Memory
  | [] => m
  | w :: ws => loadWords (m.write a w) (a + 1) ws

/-- `mem <- P_MEM_INIT`, then `LoadMemory(mem_image, load_base)` if an image is present (R197, R199). -/
def initMemory (r : InitRequest) : Except InitFailure Memory :=
  match r.memImage with
  | .absent => .ok (Memory.ofFun r.memInit)
  | .unreadable => .error .memoryImageUnreadable
  | .present lines =>
    match parseLines lines with
    | some ws => .ok (loadWords (Memory.ofFun r.memInit) r.loadBase ws)
    | none => .error .memoryImageMalformed

/-- The values of a register image; none if a token is not a decimal integer. -/
def parseValues : List Token → Option (List Int)
  | [] => some []
  | t :: ts =>
    match parseDecimal t, parseValues ts with
    | some v, some vs => some (v :: vs)
    | _, _ => none

/-- The registers from the values of a register image: the first eight modulo 2^16, or all zero if there are fewer than
eight (R201). -/
def Regs.ofValues : List Int → Regs
  | v0 :: v1 :: v2 :: v3 :: v4 :: v5 :: v6 :: v7 :: _ =>
    { r0 := BitVec.ofInt 16 v0, r1 := BitVec.ofInt 16 v1, r2 := BitVec.ofInt 16 v2, r3 := BitVec.ofInt 16 v3,
      r4 := BitVec.ofInt 16 v4, r5 := BitVec.ofInt 16 v5, r6 := BitVec.ofInt 16 v6, r7 := BitVec.ofInt 16 v7 }
  | _ => Regs.zero

/-- `LoadRegisters(reg_image?)` (R201). -/
def initRegs (r : InitRequest) : Except InitFailure Regs :=
  match r.regImage with
  | .absent => .ok Regs.zero
  | .unreadable => .error .registerImageUnreadable
  | .present text =>
    match parseValues (tokens text) with
    | some vs => .ok (Regs.ofValues vs)
    | none => .error .registerImageMalformed

/-- `Init` (R197): memory, registers, pc, cc, run status, in that order; the previous state is discarded (10_state.md
R47). -/
def init (r : InitRequest) : Except InitFailure State :=
  match initMemory r, initRegs r with
  | .ok m, .ok x => .ok { regs := x, pc := r.startPc, cc := 0b000, mem := m, run := .running, draws := 0 }
  | .error e, _ => .error e
  | .ok _, .error e => .error e

end Sys2Proof.Machine
end

