-- ==== Sys2Proof/Machine/Assembler.lean ====
section
/-! DEFINITION. The assembler contract, encoding side (30_encoding.md R109 to R128): the two passes, operand resolution,
field widths, directives, output lines and failures. An instruction line gives the canonical word (`encode`) of an
`Instr`, so the assembler and the decoder agree by one table. -/

namespace Sys2Proof.Machine

/-- Why a program has no output. The spec's own failures (R128) and, from `badLiteral` on, the inputs it leaves outside
(93_implementation_defined.md U29 to U32; log 15). -/
inductive AsmError where
  /-- The source cannot be read (R128). -/
  | sourceUnreadable
  /-- The output cannot be written (R128). -/
  | outputUnwritable
  /-- A malformed `.ORIG` literal (R110). -/
  | malformedOrig
  /-- An instruction or data before `.ORIG` (R110). -/
  | beforeOrig
  /-- A `.FILL` literal outside [-65536, 65535] (R112). -/
  | fillOutOfRange
  /-- A wrong operand count (R125). -/
  | arity
  /-- A register operand outside R0..R7 under `P_BAD_REGISTER` = REFUSE, or no register number at all (R114, D27). -/
  | badRegister
  /-- A token that is no label, no register and no literal (U32). -/
  | badLiteral
  /-- A `.BLKW` count that is negative (log 15). -/
  | badCount
  /-- A `.STRINGZ` operand that is not quoted text (log 14). -/
  | badString
deriving DecidableEq, Repr

/-- Label definitions, oldest first. -/
abbrev Symbols := List (Token × Word)

/-- The address a label stands for; `P_DUP_LABEL` says which definition a reference sees (R109, D29). -/
def labelAddress (p : AsmParams) (tab : Symbols) (name : Token) : Option Word :=
  match p.dupLabel with
  | .first => lookupToken tab name
  | .last => lookupToken tab.reverse name

/-- `A - (C + 1)` for a label at A referenced by the instruction at C (R116). -/
def labelOffset (a c : Word) : Int := (a.toNat : Int) - ((c.toNat : Int) + 1)

/-- A value rendered in a field of `width` bits: "values that do not fit silently truncate" (R118). -/
def fieldOf (width : Nat) (v : Int) : BitVec width := BitVec.ofInt width v

/-- The operand's first character is the register letter (R115, R120). -/
def isRegisterToken : Token → Bool
  | 'R' :: _ => true
  | _ => false

/-- The index of a register operand (R114): the number after the register letter, read in decimal, so that leading zeros
do not matter (R07 is R7, log 25). -/
def registerIndex (p : AsmParams) (t : Token) : Except AsmError Int :=
  match parseNat 10 t.tail with
  | none => .error .badRegister
  | some n =>
    if n < 8 then .ok n
    else match p.badRegister with
      | .truncate => .ok (n % 8 : Nat)
      | .refuse => .error .badRegister

/-- The value of an operand, in the order of R115 whatever the field: (a) a known label, (b) a register, whose index
takes 3 bits, (c) a literal. `c` is the address of the instruction. -/
def operandValue (p : AsmParams) (tab : Symbols) (c : Word) (t : Token) : Except AsmError Int :=
  match labelAddress p tab t with
  | some a => .ok (labelOffset a c)
  | none =>
    if isRegisterToken t then registerIndex p t
    else match parseLiteral t with
      | some v => .ok v
      | none => .error .badLiteral

/-- An operand rendered in its field (R115 to R118). The 3 bits of a register index stand at the low end of a wider
field, with zeros above them (log 15). -/
def operandField (p : AsmParams) (tab : Symbols) (c : Word) (width : Nat) (t : Token) :
    Except AsmError (BitVec width) :=
  match operandValue p tab c t with
  | .ok v => .ok (fieldOf width v)
  | .error e => .error e

/-- A register operand (R114). -/
def operandReg3 (p : AsmParams) (tab : Symbols) (c : Word) (t : Token) : Except AsmError Reg :=
  match operandField p tab c 3 t with
  | .ok b => .ok (Reg.ofField b)
  | .error e => .error e

/-- `mk` applied to a register operand and an operand of the given width. -/
def regAndField (p : AsmParams) (tab : Symbols) (c : Word) (width : Nat) (mk : Reg → BitVec width → Instr)
    (r o : Token) : Except AsmError Instr :=
  match operandReg3 p tab c r, operandField p tab c width o with
  | .ok r, .ok o => .ok (mk r o)
  | .error e, _ => .error e
  | .ok _, .error e => .error e

/-- `mk` applied to two register operands and an operand of the given width. -/
def regsAndField (p : AsmParams) (tab : Symbols) (c : Word) (width : Nat) (mk : Reg → Reg → BitVec width → Instr)
    (r b o : Token) : Except AsmError Instr :=
  match operandReg3 p tab c r with
  | .ok r => regAndField p tab c width (mk r) b o
  | .error e => .error e

/-- ADD and AND: "whether that operand's first character is the register" letter selects the form (R120). -/
def threeOperand (p : AsmParams) (tab : Symbols) (c : Word) (mkReg : Reg → Reg → Reg → Instr)
    (mkImm : Reg → Reg → BitVec 5 → Instr) (d s t : Token) : Except AsmError Instr :=
  if isRegisterToken t then regsAndField p tab c 3 (fun d s b => mkReg d s (Reg.ofField b)) d s t
  else regsAndField p tab c 5 mkImm d s t

/-- The instruction of a line at address `c` (R115 to R125): field widths from R117, operand counts from R119.
RET is the variant Jmp 7 and a named routine the variant Trap (R103, R123). -/
def assembleInstr (p : AsmParams) (tab : Symbols) (c : Word) : Mnemonic → List Token → Except AsmError Instr
  | .add, [d, s, t] => threeOperand p tab c .add .addI d s t
  | .and, [d, s, t] => threeOperand p tab c .and .andI d s t
  | .br nzp, [o] => (operandField p tab c 9 o).map (.br nzp)
  | .jmp, [b] => (operandReg3 p tab c b).map .jmp
  | .jsr, [o] => (operandField p tab c 11 o).map .jsr
  | .jsrr, [b] => (operandReg3 p tab c b).map .jsrr
  | .ld, [d, o] => regAndField p tab c 9 .ld d o
  | .ldi, [d, o] => regAndField p tab c 9 .ldi d o
  | .ldr, [d, b, o] => regsAndField p tab c 6 .ldr d b o
  | .lea, [d, o] => regAndField p tab c 9 .lea d o
  | .not, [d, s] => regAndField p tab c 3 (fun d b => .not d (Reg.ofField b)) d s
  | .st, [s, o] => regAndField p tab c 9 .st s o
  | .sti, [s, o] => regAndField p tab c 9 .sti s o
  | .str, [s, b, o] => regsAndField p tab c 6 .str s b o
  | .ret, [] => .ok (.jmp .r7)
  | .rti, [] => .ok .rti
  | .trap, [v] => (operandField p tab c 8 v).map .trap
  | .routine v, [] => .ok (.trap v)
  | _, _ => .error .arity

/-- `.FILL`: a literal in [-65536, 65535], emitted modulo 2^16 (R112, D28). The label table is not looked at: an operand
that is a literal is one even where a label has its name (log 24). Any other number of operands is an arity failure (log 27). -/
def fillWord : List Token → Except AsmError Word
  | [t] =>
    match parseLiteral t with
    | some n => if -65536 ≤ n ∧ n ≤ 65535 then .ok (BitVec.ofInt 16 n) else .error .fillOutOfRange
    | none => .error .badLiteral
  | _ => .error .arity

/-- `.BLKW n`: the count of zero words (R112). The count is a literal of R113, the label table is not looked at, and a
label that is no literal is refused (log 29). Any other number of operands is an arity failure (log 27). -/
def blkwCount : List Token → Except AsmError Nat
  | [t] =>
    match parseLiteral t with
    | some n => if 0 ≤ n then .ok n.toNat else .error .badCount
    | none => .error .badLiteral
  | _ => .error .arity

/-- `.ORIG`: the current address (R110); a literal is taken modulo 2^16 (log 15). No operand, or more than one, is a
malformed `.ORIG`, not an arity failure (log 27). -/
def origAddress : List Token → Except AsmError Word
  | [t] =>
    match parseLiteral t with
    | some n => .ok (BitVec.ofInt 16 n)
    | none => .error .malformedOrig
  | _ => .error .malformedOrig

/-- The words of `.STRINGZ`: "one word per character of the literal's interior ... followed by one zero-word
terminator" (R112), each the character's code, zero-extended (20_memory.md R59). -/
def stringzWords (text : List Char) : List Word := (text.tail.dropLast.map fun ch => BitVec.ofNat 16 ch.toNat) ++ [0x0000]

/-- How many words a body takes in the first pass (R111): `.STRINGZ` counts `length(text) - 1`, quotes included.
A line with an unknown mnemonic counts none, though the second pass outputs a line for it (log 23). -/
def bodyLength : Body → Except AsmError Nat
  | .nothing => .ok 0
  | .instruction _ _ => .ok 1
  | .orig _ => .ok 0
  | .finish => .ok 0
  | .fill ops => (fillWord ops).map fun _ => 1
  | .blkw ops => blkwCount ops
  | .stringz (some text) => .ok (text.length - 1)
  | .stringz none => .error .badString
  | .unknown => .ok 0

/-- The body needs a current address: "no instruction may appear before .ORIG" (R110). -/
def Body.needsAddress : Body → Bool
  | .nothing => false
  | .instruction _ _ => true
  | .orig _ => false
  | .finish => false
  | .fill _ => true
  | .blkw _ => true
  | .stringz _ => true
  | .unknown => false

/-- The 16-bit address of a position. A pass counts positions up from the `.ORIG` address without reducing them, so that
a program that runs past 0xFFFF keeps its order (log 22). -/
def positionAddress (pos : Nat) : Word := BitVec.ofNat 16 pos

/-- The position after a body, and the failures the first pass reports (R110 to R112). -/
def positionAfter (b : Body) (pos? : Option Nat) : Except AsmError (Option Nat) :=
  match b, pos? with
  | .orig ops, _ => (origAddress ops).map fun a => some a.toNat
  | b, none => if b.needsAddress then .error .beforeOrig else .ok none
  | b, some pos => (bodyLength b).map fun n => some (pos + n)

/-- The label definitions with this line's label recorded at the current address (R109); a label before `.ORIG` has no
address (log 15). -/
def recordLabel (tab : Symbols) (label : Option Token) (pos? : Option Nat) : Except AsmError Symbols :=
  match label, pos? with
  | none, _ => .ok tab
  | some name, some pos => .ok (tab ++ [(name, positionAddress pos)])
  | some _, none => .error .beforeOrig

/-- The first pass: label addresses (R109 to R111); `.END` terminates it. -/
def firstPass (p : AsmParams) (tab : Symbols) (pos? : Option Nat) : List (List Char) → Except AsmError Symbols
  | [] => .ok tab
  | line :: rest =>
    match recordLabel tab (parseLine p line).label pos? with
    | .error e => .error e
    | .ok tab' =>
      if (parseLine p line).body = .finish then .ok tab'
      else match positionAfter (parseLine p line).body pos? with
        | .error e => .error e
        | .ok next => firstPass p tab' next rest

/-- An output line: a word, or the line of an unknown mnemonic (R126, R127). -/
inductive OutLine where
  | word (w : Word)
  | text (cs : List Char)
deriving DecidableEq, Repr

/-- The output lines of a body at address `c` in the second pass (R112, R126, R127). -/
def emitBody (p : AsmParams) (tab : Symbols) (c : Word) : Body → Except AsmError (List OutLine)
  | .nothing => .ok []
  | .instruction m ops => (assembleInstr p tab c m ops).map fun i => [.word (encode i)]
  | .orig _ => .ok []
  | .finish => .ok []
  | .fill ops => (fillWord ops).map fun w => [.word w]
  | .blkw ops => (blkwCount ops).map fun n => List.replicate n (.word 0x0000)
  | .stringz (some text) => .ok ((stringzWords text).map .word)
  | .stringz none => .error .badString
  | .unknown => .ok [.text p.unknownLine]

/-- An output line and its position. -/
abbrev PlacedLine := Nat × OutLine

/-- The output lines of one body, at successive positions from `pos` on. -/
def placeFrom (pos : Nat) : List OutLine → List PlacedLine
  | [] => []
  | l :: ls => (pos, l) :: placeFrom (pos + 1) ls

/-- The second pass: the output lines with their positions, in source order. No line is put out for `.ORIG` (R110). -/
def secondPass (p : AsmParams) (tab : Symbols) (pos? : Option Nat) :
    List (List Char) → Except AsmError (List PlacedLine)
  | [] => .ok []
  | line :: rest =>
    if (parseLine p line).body = .finish then .ok []
    else match positionAfter (parseLine p line).body pos? with
      | .error e => .error e
      | .ok next =>
        match emitBody p tab (positionAddress (pos?.getD 0)) (parseLine p line).body, secondPass p tab next rest with
        | .ok here, .ok later => .ok (placeFrom (pos?.getD 0) here ++ later)
        | .error e, _ => .error e
        | .ok _, .error e => .error e

/-- A line put before the first line whose position is not lower. -/
def insertLine (e : PlacedLine) : List PlacedLine → List PlacedLine
  | [] => [e]
  | f :: rest => if e.1 ≤ f.1 then e :: f :: rest else f :: insertLine e rest

/-- "one line per word in address order" (R127): the lines by position, lines at one position in source order, no gap
filled (log 22). -/
def byAddress : List PlacedLine → List PlacedLine
  | [] => []
  | e :: rest => insertLine e (byAddress rest)

/-- The output lines of a program: first pass, then second pass, then address order (R127). -/
def assembleLines (p : AsmParams) (lines : List (List Char)) : Except AsmError (List OutLine) :=
  match firstPass p [] none lines with
  | .error e => .error e
  | .ok tab => (secondPass p tab none lines).map fun placed => (byAddress placed).map Prod.snd

/-- The caller-supplied output form (R127). -/
inductive OutputMode where
  | binary
  | hex
deriving DecidableEq, Repr

/-- The text of an output line (R127). -/
def renderLine (mode : OutputMode) : OutLine → List Char
  | .text cs => cs
  | .word w =>
    match mode with
    | .binary => renderBits w
    | .hex => renderHex w

/-- The assembler: a source and an output that can or cannot be opened give output lines or a failure (R127, R128). An output
that cannot be opened is reported before a failure of the program, a source that cannot be read before both (log 26). -/
def assemble (p : AsmParams) (mode : OutputMode) (source : Source (List (List Char))) (outputOpens : Bool) :
    Except AsmError (List (List Char)) :=
  match source with
  | .absent => .error .sourceUnreadable
  | .unreadable => .error .sourceUnreadable
  | .present lines =>
    if outputOpens then (assembleLines p lines).map fun out => out.map (renderLine mode)
    else .error .outputUnwritable

end Sys2Proof.Machine
end

