-- ==== Sys2Proof/Machine/Transactions.lean ====
section
/-! DEFINITION. The caller's side of the block interface (10_state.md R46 to R52, 60_exceptions.md R194, R195). `Init`
is `Machine.init`, `Step` is `Machine.step`; here are the outputs of a step, the service port, the caller's reads and
writes between steps, and the caller's loop with its two stop tests. -/

namespace Sys2Proof.Machine

/-- The outputs of a step (R48). -/
structure StepOutput where
  /-- The pc after the step (R49). -/
  pcOut : Word
  /-- Whether the step fetched the all-zero word (R50). -/
  endOfProgram : Bool
  /-- The run status after the step. -/
  run : RunStatus
deriving DecidableEq, Repr

/-- The outputs of a step from `s` to `t`. -/
def stepOutput (s t : State) : StepOutput := { pcOut := t.pc, endOfProgram := s.fetch == 0x0000, run := t.run }

/-- The I/O port (R51): the vector and the state the step from `s` hands to the collaborator, if it calls it. -/
def serviceCall (s : State) : Option (BitVec 8 × State) :=
  match s.run with
  | .halted _ => none
  | .running =>
    match decode s.fetch with
    | .trap v => if recognizedVector v then some (v, s.advance) else none
    | _ => none

/-- `Read(a)` between steps (R52). -/
def callerRead (s : State) (a : Word) : Word := s.memRead a

/-- `Write(a, v)` between steps (R52); it takes effect before the next fetch. -/
def callerWrite (s : State) (a v : Word) : State := s.memWrite a v

/-- The two callers of 60_exceptions.md R195. -/
inductive CallerStop where
  /-- Stops on the block's HALTED status only. -/
  | onHalted
  /-- Stops also at the first step whose resulting pc is 0x0000, the halt sentinel. -/
  | onSentinel
deriving DecidableEq, Repr

/-- The caller's stop test after a step (R194: end_of_program or HALTED; R195: the sentinel). -/
def CallerStop.stops (c : CallerStop) (o : StepOutput) : Bool :=
  o.endOfProgram || o.run != .running || (c == .onSentinel && o.pcOut == 0x0000)

/-- The caller's loop for at most `fuel` steps: the state where it stopped, or `none` while it goes on, or where the
step does not exist. -/
def callerRun (c : CallerStop) : Nat → State → Option State
  | 0, _ => none
  | fuel + 1, s =>
    match step s with
    | .next t => if c.stops (stepOutput s t) then some t else callerRun c fuel t
    | .fault _ => none
    | .refused _ => none

end Sys2Proof.Machine
end

