-- ==== Sys2Proof/Safety.lean ====
section
/-! DEFINITION. What counts as a good state and a safe run, and the vocabulary the claims are stated in: the spec's
tables of who writes what (10_state.md R26, R31, R34; 20_memory.md R56), written from those tables and not from the
meanings. -/

namespace Sys2Proof.Machine

/-- The four values cc can have (10_state.md R36): 000 before the first condition-affecting instruction, then exactly
one flag. -/
def legalCC (cc : BitVec 3) : Bool := cc == 0b000 || cc == 0b100 || cc == 0b010 || cc == 0b001

/-- The invariant of the machine: memory in canonical form and a legal condition code. -/
def State.Inv (s : State) : Prop := s.mem.wf = true ∧ legalCC s.cc = true

/-- A safe run of `k` steps from `s`: it takes all its steps, or an earlier step halts the block (40_fetch_decode.md
R146). -/
def SafeRun (k : Nat) (s : State) : Prop :=
  (∃ t, Sys2Proof.core.run k s = .next t) ∨
    ∃ j t c, j < k ∧ Sys2Proof.core.run j s = .next t ∧ t.run = .halted c

/-- `cc` shows the sign of `v` as a signed 16-bit quantity (40_fetch_decode.md R140). -/
def SignFlag (cc : BitVec 3) (v : Word) : Prop :=
  (v.toInt < 0 → cc = 0b100) ∧ (v.toInt = 0 → cc = 0b010) ∧ (0 < v.toInt → cc = 0b001)

/-- From `s` to `t` nothing changed but register `dr`, now `v`, and cc, now the sign of `v`. -/
structure ResultOnly (s t : State) (dr : Reg) (v : Word) : Prop where
  result : t.readReg dr = v
  flag : SignFlag t.cc v
  others : ∀ r, r ≠ dr → t.readReg r = s.readReg r
  pc : t.pc = s.pc
  memory : ∀ a, t.memRead a = s.memRead a
  run : t.run = s.run
  draws : t.draws = s.draws

/-- From `s` to `t` nothing changed but the pc, now `target`. -/
structure JumpOnly (s t : State) (target : Word) : Prop where
  pc : t.pc = target
  registers : ∀ r, t.readReg r = s.readReg r
  cc : t.cc = s.cc
  memory : ∀ a, t.memRead a = s.memRead a
  run : t.run = s.run
  draws : t.draws = s.draws

/-- From `s` to `t` nothing changed but the pc, now `target`, and R7, now the return address. -/
structure CallOnly (s t : State) (target : Word) : Prop where
  pc : t.pc = target
  link : t.readReg .r7 = s.pc
  others : ∀ r, r ≠ .r7 → t.readReg r = s.readReg r
  cc : t.cc = s.cc
  memory : ∀ a, t.memRead a = s.memRead a
  run : t.run = s.run
  draws : t.draws = s.draws

/-- From `s` to `t` nothing changed but the word at `ea`, now `v`. -/
structure StoreOnly (s t : State) (ea v : Word) : Prop where
  stored : t.memRead ea = v
  others : ∀ a, a ≠ ea → t.memRead a = s.memRead a
  registers : ∀ r, t.readReg r = s.readReg r
  cc : t.cc = s.cc
  pc : t.pc = s.pc
  run : t.run = s.run
  draws : t.draws = s.draws

/-- From `s` to `t` nothing changed but R0, of which nothing is said, and the count of drawn values. -/
structure InputOnly (s t : State) : Prop where
  others : ∀ r, r ≠ .r0 → t.readReg r = s.readReg r
  cc : t.cc = s.cc
  pc : t.pc = s.pc
  memory : ∀ a, t.memRead a = s.memRead a
  run : t.run = s.run
  draws : t.draws = s.draws + 1

/-- From `s` to `t` nothing changed but the pc and the run status. -/
structure HaltOnly (s t : State) (target : Word) (cause : HaltCause) : Prop where
  pc : t.pc = target
  run : t.run = .halted cause
  registers : ∀ r, t.readReg r = s.readReg r
  cc : t.cc = s.cc
  memory : ∀ a, t.memRead a = s.memRead a
  draws : t.draws = s.draws

/-- The general register an instruction may write (10_state.md R26; R0 of GETC and IN is 60_exceptions.md R186's). -/
def dest : Instr → Option Reg
  | .endOfProgram => none
  | .add dr _ _ => some dr
  | .addI dr _ _ => some dr
  | .and dr _ _ => some dr
  | .andI dr _ _ => some dr
  | .br _ _ => none
  | .jmp _ => none
  | .ret => none
  | .jsr _ => some .r7
  | .jsrr _ => some .r7
  | .ld dr _ => some dr
  | .ldi dr _ => some dr
  | .ldr dr _ _ => some dr
  | .lea dr _ => some dr
  | .not dr _ => some dr
  | .st _ _ => none
  | .sti _ _ => none
  | .str _ _ _ => none
  | .rti => none
  | .trap v => if v = 0x20 ∨ v = 0x23 then some .r0 else none
  | .getc => some .r0
  | .out => none
  | .puts => none
  | .inp => some .r0
  | .putsp => none
  | .halt => none
  | .unrecognized => none

/-- GETC and IN in every form: the instructions whose R0 the I/O collaborator sets (60_exceptions.md R186). -/
def takesInput : Instr → Bool
  | .trap v => v == 0x20 || v == 0x23
  | .getc => true
  | .inp => true
  | _ => false

/-- The condition-affecting instructions: "ADD, AND, LD, LDI, LDR, LEA and NOT" (40_fetch_decode.md R139). -/
def setsCC : Instr → Bool
  | .add _ _ _ => true
  | .addI _ _ _ => true
  | .and _ _ _ => true
  | .andI _ _ _ => true
  | .ld _ _ => true
  | .ldi _ _ => true
  | .ldr _ _ _ => true
  | .lea _ _ => true
  | .not _ _ => true
  | _ => false

/-- The address a store writes and the register it stores (20_memory.md R56, 45_store.md), for a state whose pc is
A + 1; `none` for every instruction that stores nothing. -/
def storeOf (i : Instr) (s : State) : Option (Word × Reg) :=
  match i with
  | .st sr off9 => some (pcRelative s off9, sr)
  | .sti sr off9 => some (pointer s off9, sr)
  | .str sr base off6 => some (basePlus s base off6, sr)
  | _ => none

/-- The table of 10_state.md R31: the pc after a step of instruction `i` from the state `s`, whose pc is A. -/
def pcAfter (i : Instr) (s : State) : Word :=
  match i with
  | .br nzp off9 => if nzp &&& s.cc ≠ 0 then s.pc + 1 + off9.signExtend 16 else s.pc + 1
  | .jmp base => s.readReg base
  | .ret => s.readReg .r7
  | .jsr off11 => s.pc + 1 + off11.signExtend 16
  | .jsrr base => if base = .r7 ∧ Config.jsrrLinkFirst = true then s.pc + 1 else s.readReg base
  | .trap v => if v = 0x25 then 0x0000 else s.pc + 1
  | .halt => 0x0000
  | .endOfProgram => if Config.zeroHaltPc = .incremented then s.pc + 1 else s.pc
  | _ => s.pc + 1

/-- The bits of `w` the decoder reads: all but those of 30_encoding.md R95. -/
def careMask (w : Word) : Word :=
  match w.toNat / 4096 with
  | 0b0001 => if w.getLsbD 5 then 0xFFFF else 0xFFE7
  | 0b0101 => if w.getLsbD 5 then 0xFFFF else 0xFFE7
  | 0b1100 => 0xF1C0
  | 0b0100 => if w.getLsbD 11 then 0xFFFF else 0xF9C0
  | 0b1001 => 0xFFC0
  | 0b1111 => 0xF0FF
  | 0b1000 => 0xF000
  | 0b1101 => 0xF000
  | _ => 0xFFFF

end Sys2Proof.Machine
end

