-- ==== Sys2Proof/Certificates/Slice0/Obligations.lean ====
section
/-! DEFINITION. The statements of slice 0, from the numbered rules of spec/. The vocabulary (`ResultOnly`, `pcAfter`,
...) is in Sys2Proof/Safety.lean. `exec i s` runs the handler of `i` from the state after the fetch and the increment,
so there `s.pc` is A + 1; `step s` runs a whole step from the state whose pc is A. -/

open Sys2Proof Sys2Proof.Machine

/-! ### The step -/

/-- R131, R132: a step of a running block runs the instruction its decoder reads from the word at the pc, in the state
whose pc has been incremented modulo 2^16 and which is otherwise the same. -/
def Obligations.StepRunsDecodedInstruction : Prop :=
  ∀ (s : State) (i : Instr), s.run = .running → decode (s.mem.read s.pc) = i →
    step s = exec i { s with pc := BitVec.ofNat 16 (s.pc.toNat + 1) }

/-- In state HALTED the block has no step (R130). The fault with its cause is the model's way of writing that stuck state
(log 10, DEDUCED). -/
def Obligations.HaltedBlockHasNoStep : Prop :=
  ∀ (s : State) (c : HaltCause), s.run = .halted c → step s = .fault (.halted c)

/-- R101: every word decodes to one of the spec's variants and executes without a fault or a refusal. -/
def Obligations.NoEncodingIsIllegal : Prop :=
  ∀ (w : Word) (s : State), (decode w).isCore = true ∧ ∃ t, exec (decode w) s = .next t

/-- R16, R181: whatever instruction a handler is given, it completes; only a halted block stops a run. -/
def Obligations.EveryRunIsSafe : Prop :=
  ∀ (k : Nat) (s : State), s.run = .running → SafeRun k s

/-- R41, R133, R173: the two events that halt the block, by the bits of the fetched word. -/
def Obligations.OnlyTwoEventsHalt : Prop :=
  ∀ s t : State, step s = .next t →
    (t.run = .halted .zeroWord ↔ s.mem.read s.pc = 0x0000) ∧
    (t.run = .halted .trapHalt ↔
      (s.mem.read s.pc).toNat / 4096 = 0xF ∧ (s.mem.read s.pc).toNat % 256 = 0x25)

/-- R31: the pc after a step, the whole table. -/
def Obligations.PcAfterEveryStep : Prop :=
  ∀ s t : State, step s = .next t → t.pc = pcAfter (decode (s.mem.read s.pc)) s

/-! ### Decoding and encoding -/

/-- R104: the decode function read as arithmetic on the word's number; `n / 2^lo % 2^len` is `w[lo+len-1 : lo]`. -/
def Obligations.DecodeReadsEachField : Prop :=
  ∀ w : Word,
    let n := w.toNat
    let op := n / 4096
    let high := Reg.ofField (BitVec.ofNat 3 (n / 512 % 8))
    let mid := Reg.ofField (BitVec.ofNat 3 (n / 64 % 8))
    let low := Reg.ofField (BitVec.ofNat 3 (n % 8))
    let imm5 := BitVec.ofNat 5 (n % 32)
    let off6 := BitVec.ofNat 6 (n % 64)
    let off9 := BitVec.ofNat 9 (n % 512)
    (n = 0 → decode w = .endOfProgram) ∧
    (n ≠ 0 → op = 0x0 → decode w = .br (BitVec.ofNat 3 (n / 512 % 8)) off9) ∧
    (op = 0x1 → n / 32 % 2 = 0 → decode w = .add high mid low) ∧
    (op = 0x1 → n / 32 % 2 = 1 → decode w = .addI high mid imm5) ∧
    (op = 0x2 → decode w = .ld high off9) ∧
    (op = 0x3 → decode w = .st high off9) ∧
    (op = 0x4 → n / 2048 % 2 = 1 → decode w = .jsr (BitVec.ofNat 11 (n % 2048))) ∧
    (op = 0x4 → n / 2048 % 2 = 0 → decode w = .jsrr mid) ∧
    (op = 0x5 → n / 32 % 2 = 0 → decode w = .and high mid low) ∧
    (op = 0x5 → n / 32 % 2 = 1 → decode w = .andI high mid imm5) ∧
    (op = 0x6 → decode w = .ldr high mid off6) ∧
    (op = 0x7 → decode w = .str high mid off6) ∧
    (op = 0x8 → decode w = .rti) ∧
    (op = 0x9 → decode w = .not high mid) ∧
    (op = 0xA → decode w = .ldi high off9) ∧
    (op = 0xB → decode w = .sti high off9) ∧
    (op = 0xC → decode w = .jmp mid) ∧
    (op = 0xD → decode w = .unrecognized) ∧
    (op = 0xE → decode w = .lea high off9) ∧
    (op = 0xF → decode w = .trap (BitVec.ofNat 8 (n % 256)))

/-- The canonical word of every well-formed instruction, with every value of its operands, decodes to the variant the
instruction stands for, which is the instruction itself unless it has one of the seven rows that are other names (the
constructors of those rows are the model's choice, log 9, as is the canonical word 0xD000 of the unrecognized opcode,
log 28). -/
def Obligations.DecodeOfEncode : Prop :=
  ∀ i : Instr, i.wellFormed = true → decode (encode i) = i.core ∧ (i.isCore = true → decode (encode i) = i)

/-- R106: what a word decodes to is well formed, and encoding it gives a word that decodes the same (the
canonical word of the unrecognized opcode is the model's choice, log 28). -/
def Obligations.DecodeOfCanonicalWord : Prop :=
  ∀ w : Word, (decode w).wellFormed = true ∧ decode (encode (decode w)) = decode w

/-- R95: a word executes as the word with its don't-care bits zero. -/
def Obligations.DontCareBitsDoNotMatter : Prop :=
  ∀ (w : Word) (s : State), exec (decode w) s = exec (decode (w &&& careMask w)) s

/-- R155, R176 (log 9, the model's choice of constructors): a decoded word executes the same under the constructor of its
row, RET or GETC to HALT, as under the variant it decodes to; and each of those constructors has the word and the meaning
of the JMP or TRAP it stands for. -/
def Obligations.NamedWordsRunAsJmpAndTrap : Prop :=
  (∀ (w : Word) (s : State), exec (decode w).named s = exec (decode w) s) ∧
  (∀ (i : Instr) (s : State), exec i s = exec i.core s ∧ encode i = encode i.core) ∧
  (∀ (i : Instr), i.isCore = true → i.named.core = i)

/-- Words written out from the spec's encodings decode to their instructions (a sanity check). -/
def Obligations.WordsDecodeAsWritten : Prop :=
  decode 0x1283 = .add .r1 .r2 .r3 ∧ decode 0x03FE = .br 0b001 0x1FE ∧ decode 0xC1C0 = .jmp .r7 ∧
    decode 0x7441 = .str .r2 .r1 1 ∧ decode 0xF025 = .trap 0x25

/-! ### Invariants and whole-machine rules -/

/-- The reset state and every initialization satisfy the invariant (cc by R45; the canonical form is the model's, log 3). -/
def Obligations.ResetSatisfiesInv : Prop := State.reset.Inv ∧ ∀ (r : InitRequest) (s : State), init r = .ok s → s.Inv

/-- Every step keeps the invariant: a legal cc (R36) and the canonical form of memory (log 3). -/
def Obligations.StepKeepsInv : Prop :=
  ∀ s t : State, s.Inv → step s = .next t → t.Inv

/-- R36: cc is 000 at reset; a condition-affecting instruction leaves exactly one flag; once a flag is set cc never
returns to 000; no step leaves the four values. -/
def Obligations.CcIsZeroOnlyBeforeTheFirstResult : Prop :=
  State.reset.cc = 0b000 ∧ ∀ s t : State, step s = .next t →
    (setsCC (decode (s.mem.read s.pc)) = true → t.cc = 0b100 ∨ t.cc = 0b010 ∨ t.cc = 0b001) ∧
    (s.cc ≠ 0b000 → t.cc ≠ 0b000) ∧ (legalCC s.cc = true → legalCC t.cc = true)

/-- R26: no instruction changes a general register but the one its row names. -/
def Obligations.RegisterWritersAreListed : Prop :=
  ∀ (i : Instr) (s t : State), exec i s = .next t → ∀ r, dest i ≠ some r → t.readReg r = s.readReg r

/-- R34, R139, R140: the condition-affecting instructions set cc to the sign of the value they wrote to their
destination register, and no other instruction writes cc. -/
def Obligations.CcWritersAreListed : Prop :=
  ∀ (i : Instr) (s t : State), exec i s = .next t →
    (setsCC i = true → ∃ dr, dest i = some dr ∧ SignFlag t.cc (t.readReg dr)) ∧
    (setsCC i = false → t.cc = s.cc)

/-- R56, R72: a store writes its source register at its address, and nothing else changes any word of memory. -/
def Obligations.MemoryWritersAreListed : Prop :=
  ∀ (i : Instr) (s t : State), exec i s = .next t → ∀ a,
    (∀ sr, storeOf i s = some (a, sr) → t.memRead a = s.readReg sr) ∧
    ((∀ sr, storeOf i s ≠ some (a, sr)) → t.memRead a = s.memRead a)

/-- R35: cc does not reach the registers, the pc, memory or the run status through any instruction but BR. GETC and IN
are left out because the block hands cc to the I/O collaborator (R51), whose R0 is free. -/
def Obligations.OnlyBrReadsCc : Prop :=
  ∀ (i : Instr) (s : State) (c : BitVec 3), (∀ nzp off9, i ≠ .br nzp off9) → takesInput i = false →
    ∃ t u, exec i s = .next t ∧ exec i { s with cc := c } = .next u ∧
      u.regs = t.regs ∧ u.pc = t.pc ∧ u.mem = t.mem ∧ u.run = t.run

/-- R69: a store is seen by the fetch of every later step at its address, until a step stores there again; right after
the store every other address is fetched as before. -/
def Obligations.StoreIsSeenByFetch : Prop :=
  ∀ (s t : State) (ea : Word) (sr : Reg), s.run = .running →
    storeOf (decode (s.mem.read s.pc)) { s with pc := s.pc + 1 } = some (ea, sr) → step s = .next t →
    (∀ p : Word, ({ t with pc := p } : State).fetch = if p = ea then s.readReg sr else s.mem.read p) ∧
    (∀ (k : Nat) (u : State), Sys2Proof.core.run k t = .next u →
      (∀ (j : Nat) (v : State), j < k → Sys2Proof.core.run j t = .next v →
        ∀ q, storeOf (decode (v.mem.read v.pc)) { v with pc := v.pc + 1 } ≠ some (ea, q)) →
      ({ u with pc := ea } : State).fetch = s.readReg sr)

/-! ### Memory -/

/-- R55: a read after a write. -/
def Obligations.ReadAfterWrite : Prop :=
  ∀ (s : State) (a b v : Word), (s.memWrite a v).memRead b = if b = a then v else s.memRead b

/-- Two canonical memories with the same content are the same data (log 3). -/
def Obligations.CanonicalMemoryIsUnique : Prop :=
  ∀ m m' : Memory, m.wf = true → m'.wf = true → (∀ a : Word, m.read a = m'.read a) → m = m'

/-! ### Arithmetic and flags -/

/-- R13: sign extension of every field width keeps the value. -/
def Obligations.SignExtensionKeepsValue : Prop :=
  ∀ (n : Nat) (v : Int), n ∈ [5, 6, 9, 11] → -(2 ^ (n - 1)) ≤ v → v < 2 ^ (n - 1) →
    (sext (BitVec.ofInt n v)).toInt = v

/-- R140: SetCC sets exactly one flag, the sign of the value. -/
def Obligations.SetCcShowsTheSign : Prop :=
  ∀ (s : State) (v : Word), SignFlag (s.setCC v).cc v ∧
    ((s.setCC v).cc = 0b100 ∨ (s.setCC v).cc = 0b010 ∨ (s.setCC v).cc = 0b001)

/-! ### Instructions -/

/-- R147, R148: ADD in both forms: its words and fields, and the exact signed sum narrowed to 16 bits. -/
def Obligations.AddWritesTheSum : Prop :=
  (∀ w : Word, field w 12 4 = 0b0001 → field w 5 1 = 0 → decode w = .add (regHigh w) (regMid w) (regLow w)) ∧
  (∀ w : Word, field w 12 4 = 0b0001 → field w 5 1 = 1 → decode w = .addI (regHigh w) (regMid w) (field w 0 5)) ∧
  (∀ (dr sr1 sr2 : Reg) (s : State), ∃ t, exec (.add dr sr1 sr2) s = .next t ∧
    ResultOnly s t dr (BitVec.ofInt 16 ((s.readReg sr1).toInt + (s.readReg sr2).toInt))) ∧
  (∀ (dr sr1 : Reg) (imm5 : BitVec 5) (s : State), ∃ t, exec (.addI dr sr1 imm5) s = .next t ∧
    ResultOnly s t dr (BitVec.ofInt 16 ((s.readReg sr1).toInt + imm5.toInt)))

/-- R149, R150: AND in both forms: its words and fields, and the result bit by bit; bit i of the immediate above bit 4
is its sign bit. -/
def Obligations.AndWritesTheConjunction : Prop :=
  (∀ w : Word, field w 12 4 = 0b0101 → field w 5 1 = 0 → decode w = .and (regHigh w) (regMid w) (regLow w)) ∧
  (∀ w : Word, field w 12 4 = 0b0101 → field w 5 1 = 1 → decode w = .andI (regHigh w) (regMid w) (field w 0 5)) ∧
  (∀ (dr sr1 sr2 : Reg) (s : State), ∃ t v, exec (.and dr sr1 sr2) s = .next t ∧ ResultOnly s t dr v ∧
    ∀ i < 16, v.getLsbD i = ((s.readReg sr1).getLsbD i && (s.readReg sr2).getLsbD i)) ∧
  (∀ (dr sr1 : Reg) (imm5 : BitVec 5) (s : State), ∃ t v, exec (.andI dr sr1 imm5) s = .next t ∧
    ResultOnly s t dr v ∧ ∀ i < 16, v.getLsbD i = ((s.readReg sr1).getLsbD i && imm5.getLsbD (min i 4)))

/-- R165: NOT: its words and fields, and the result bit by bit. -/
def Obligations.NotWritesTheComplement : Prop :=
  (∀ w : Word, field w 12 4 = 0b1001 → decode w = .not (regHigh w) (regMid w)) ∧
  (∀ (dr sr : Reg) (s : State), ∃ t v, exec (.not dr sr) s = .next t ∧ ResultOnly s t dr v ∧
    ∀ i < 16, v.getLsbD i = !(s.readReg sr).getLsbD i)

/-- R153: BR: its words and fields; it goes to pc plus the signed offset, modulo 2^16, if the mask and cc share a flag,
and changes nothing otherwise. -/
def Obligations.BrBranchesOnTheMask : Prop :=
  (∀ w : Word, w ≠ 0x0000 → field w 12 4 = 0b0000 → decode w = .br (field w 9 3) (field w 0 9)) ∧
  (∀ (nzp : BitVec 3) (off9 : BitVec 9) (s : State), ∃ t, exec (.br nzp off9) s = .next t ∧
    ((∃ i < 3, nzp.getLsbD i = true ∧ s.cc.getLsbD i = true) →
      JumpOnly s t (BitVec.ofInt 16 (s.pc.toNat + off9.toInt))) ∧
    ((∀ i < 3, nzp.getLsbD i = true → s.cc.getLsbD i = false) → t = s))

/-- R154, R155: JMP goes to its base register; RET is the word 0xC1C0 and goes to R7; every JMP word whose base field is 7
executes identically. That RET has a constructor beside JMP is the model's choice (log 9). -/
def Obligations.JmpAndRetGoThroughARegister : Prop :=
  (∀ w : Word, field w 12 4 = 0b1100 → decode w = .jmp (regMid w)) ∧ encode .ret = 0xC1C0 ∧
  (∀ (w : Word) (s : State), field w 12 4 = 0b1100 → regMid w = .r7 → exec (decode w) s = exec .ret s) ∧
  (∀ (base : Reg) (s : State), ∃ t, exec (.jmp base) s = .next t ∧ JumpOnly s t (s.readReg base)) ∧
  (∀ s : State, ∃ t, exec .ret s = .next t ∧ JumpOnly s t (s.readReg .r7))

/-- R156: JSR: its words and fields; it links and goes to pc plus the signed offset, modulo 2^16. -/
def Obligations.JsrCallsPcRelative : Prop :=
  (∀ w : Word, field w 12 4 = 0b0100 → field w 11 1 = 1 → decode w = .jsr (field w 0 11)) ∧
  (∀ (off11 : BitVec 11) (s : State), ∃ t, exec (.jsr off11) s = .next t ∧
    CallOnly s t (BitVec.ofInt 16 (s.pc.toNat + off11.toInt)))

/-- R157: JSRR: its words and fields; it links and goes to the base register; JSRR R7 goes to A + 1 where
`P_JSRR_LINK_FIRST`, to the old R7 otherwise. -/
def Obligations.JsrrCallsThroughARegister : Prop :=
  (∀ w : Word, field w 12 4 = 0b0100 → field w 11 1 = 0 → decode w = .jsrr (regMid w)) ∧
  (∀ (base : Reg) (s : State), ∃ t, exec (.jsrr base) s = .next t ∧
    (base ≠ .r7 → CallOnly s t (s.readReg base)) ∧
    (base = .r7 → Config.jsrrLinkFirst = true → CallOnly s t s.pc) ∧
    (base = .r7 → Config.jsrrLinkFirst = false → CallOnly s t (s.readReg .r7)))

/-- R160: LD: its words and fields; it loads the word at pc plus the signed offset. -/
def Obligations.LdLoadsPcRelative : Prop :=
  (∀ w : Word, field w 12 4 = 0b0010 → decode w = .ld (regHigh w) (field w 0 9)) ∧
  (∀ (dr : Reg) (off9 : BitVec 9) (s : State), ∃ t, exec (.ld dr off9) s = .next t ∧
    ResultOnly s t dr (s.memRead (BitVec.ofInt 16 (s.pc.toNat + off9.toInt))))

/-- R161: LDI: its words and fields; it loads through the pointer at pc plus the signed offset. -/
def Obligations.LdiLoadsIndirect : Prop :=
  (∀ w : Word, field w 12 4 = 0b1010 → decode w = .ldi (regHigh w) (field w 0 9)) ∧
  (∀ (dr : Reg) (off9 : BitVec 9) (s : State), ∃ t, exec (.ldi dr off9) s = .next t ∧
    ResultOnly s t dr (s.memRead (s.memRead (BitVec.ofInt 16 (s.pc.toNat + off9.toInt)))))

/-- R162: LDR: its words and fields; it loads the word at the base register plus the signed offset. -/
def Obligations.LdrLoadsBasePlusOffset : Prop :=
  (∀ w : Word, field w 12 4 = 0b0110 → decode w = .ldr (regHigh w) (regMid w) (field w 0 6)) ∧
  (∀ (dr base : Reg) (off6 : BitVec 6) (s : State), ∃ t, exec (.ldr dr base off6) s = .next t ∧
    ResultOnly s t dr (s.memRead (BitVec.ofInt 16 ((s.readReg base).toNat + off6.toInt))))

/-- R163: LEA: its words and fields; it writes the address pc plus the signed offset and sets cc from it. -/
def Obligations.LeaWritesTheAddress : Prop :=
  (∀ w : Word, field w 12 4 = 0b1110 → decode w = .lea (regHigh w) (field w 0 9)) ∧
  (∀ (dr : Reg) (off9 : BitVec 9) (s : State), ∃ t, exec (.lea dr off9) s = .next t ∧
    ResultOnly s t dr (BitVec.ofInt 16 (s.pc.toNat + off9.toInt)))

/-- R167: ST: its words and fields; it stores at pc plus the signed offset. -/
def Obligations.StStoresPcRelative : Prop :=
  (∀ w : Word, field w 12 4 = 0b0011 → decode w = .st (regHigh w) (field w 0 9)) ∧
  (∀ (sr : Reg) (off9 : BitVec 9) (s : State), ∃ t, exec (.st sr off9) s = .next t ∧
    StoreOnly s t (pcRelative s off9) (s.readReg sr) ∧
    pcRelative s off9 = BitVec.ofInt 16 (s.pc.toNat + off9.toInt))

/-- R168: STI: its words and fields; it stores through the pointer at pc plus the signed offset. -/
def Obligations.StiStoresIndirect : Prop :=
  (∀ w : Word, field w 12 4 = 0b1011 → decode w = .sti (regHigh w) (field w 0 9)) ∧
  (∀ (sr : Reg) (off9 : BitVec 9) (s : State), ∃ t, exec (.sti sr off9) s = .next t ∧
    StoreOnly s t (pointer s off9) (s.readReg sr) ∧
    pointer s off9 = s.memRead (BitVec.ofInt 16 (s.pc.toNat + off9.toInt)))

/-- R169: STR: its words and fields; it stores at the base register plus the signed offset. -/
def Obligations.StrStoresBasePlusOffset : Prop :=
  (∀ w : Word, field w 12 4 = 0b0111 → decode w = .str (regHigh w) (regMid w) (field w 0 6)) ∧
  (∀ (sr base : Reg) (off6 : BitVec 6) (s : State), ∃ t, exec (.str sr base off6) s = .next t ∧
    StoreOnly s t (basePlus s base off6) (s.readReg sr) ∧
    basePlus s base off6 = BitVec.ofInt 16 ((s.readReg base).toNat + off6.toInt))

/-- R171, R175, R177: RTI, TRAP with a vector outside 0x20..0x25 and the unrecognized opcode 1101: their words, and they
change nothing. -/
def Obligations.NoOpsChangeNothing : Prop :=
  (∀ w : Word, field w 12 4 = 0b1000 → decode w = .rti) ∧
  (∀ w : Word, field w 12 4 = 0b1101 → decode w = .unrecognized) ∧
  (∀ w : Word, field w 12 4 = 0b1111 → (field w 0 8).toNat < 0x20 ∨ 0x25 < (field w 0 8).toNat →
    decode w = .trap (field w 0 8)) ∧
  (∀ s : State, exec .rti s = .next s) ∧ (∀ s : State, exec .unrecognized s = .next s) ∧
  (∀ (v : BitVec 8) (s : State), v.toNat < 0x20 ∨ 0x25 < v.toNat → exec (.trap v) s = .next s)

/-- R173: HALT is the word 0xF025; every TRAP word with vector 0x25 decodes to TRAP of that vector; HALT and TRAP 0x25 halt
with pc 0x0000 and change nothing else. That HALT has a constructor beside TRAP is the model's choice (log 9). -/
def Obligations.HaltStopsAtTheSentinel : Prop :=
  encode .halt = 0xF025 ∧
  (∀ w : Word, field w 12 4 = 0b1111 → field w 0 8 = 0x25 → decode w = .trap 0x25) ∧
  ∀ s : State, (∃ t, exec .halt s = .next t ∧ HaltOnly s t 0x0000 .trapHalt) ∧
    (∃ t, exec (.trap 0x25) s = .next t ∧ HaltOnly s t 0x0000 .trapHalt)

/-- R174 with the bound of R186: the words of GETC, OUT, PUTS, IN and PUTSP decode to TRAPs and execute as their rows'
constructors (log 9, the model's choice); GETC and IN complete and change R0 alone, of whose value nothing is said, and
the model's count of drawn values (log 7, log 8); OUT, PUTS and PUTSP complete and change nothing. -/
def Obligations.IoRoutinesStayInsideTheirBound : Prop :=
  (∀ (w : Word) (s : State), field w 12 4 = 0b1111 → decode w = .trap (field w 0 8) ∧
    (field w 0 8 = 0x20 → exec (decode w) s = exec .getc s) ∧ (field w 0 8 = 0x21 → exec (decode w) s = exec .out s) ∧
    (field w 0 8 = 0x22 → exec (decode w) s = exec .puts s) ∧ (field w 0 8 = 0x23 → exec (decode w) s = exec .inp s) ∧
    (field w 0 8 = 0x24 → exec (decode w) s = exec .putsp s)) ∧
  ∀ s : State, (∃ t, exec .getc s = .next t ∧ InputOnly s t) ∧ (∃ t, exec .inp s = .next t ∧ InputOnly s t) ∧
    exec .out s = .next s ∧ exec .puts s = .next s ∧ exec .putsp s = .next s

/-- R172: TRAP completes for every vector: 0x20 and 0x23 change R0 alone, 0x25 halts with pc 0x0000, every other vector
changes nothing; R7 is not written. R0 is free and its draw is counted (log 7, log 8, the model's choice). -/
def Obligations.TrapFollowsItsVector : Prop :=
  ∀ (v : BitVec 8) (s : State), ∃ t, exec (.trap v) s = .next t ∧
    (v = 0x20 ∨ v = 0x23 → InputOnly s t) ∧ (v = 0x25 → HaltOnly s t 0x0000 .trapHalt) ∧
    (v ≠ 0x20 → v ≠ 0x23 → v ≠ 0x25 → t = s) ∧ t.readReg .r7 = s.readReg .r7

/-- R133: a step that fetches the all-zero word sets end_of_program, halts with cause ZERO_WORD and writes no register,
no cc and no memory; the pc after it is A + 1 or A by `P_ZERO_HALT_PC`. -/
def Obligations.ZeroWordHaltsWithoutAHandler : Prop :=
  ∀ s : State, s.run = .running → s.mem.read s.pc = 0x0000 → ∃ t, step s = .next t ∧
    (stepOutput s t).endOfProgram = true ∧
    (Config.zeroHaltPc = .incremented → HaltOnly s t (s.pc + 1) .zeroWord) ∧
    (Config.zeroHaltPc = .unchanged → HaltOnly s t s.pc .zeroWord)

/-- The meaning `exec` gives the all-zero word, from the state whose pc is A + 1: it halts with cause ZERO_WORD and changes
nothing but the pc, which it recovers as pc - 1 where `P_ZERO_HALT_PC` is UNCHANGED. That `exec` has such a meaning is the
model's way of writing the halt of R133 (log 19, DEDUCED). -/
def Obligations.ExecOfTheZeroWordHalts : Prop :=
  ∀ s : State, ∃ t, exec .endOfProgram s = .next t ∧
    (Config.zeroHaltPc = .incremented → HaltOnly s t s.pc .zeroWord) ∧
    (Config.zeroHaltPc = .unchanged → HaltOnly s t (s.pc - 1) .zeroWord)

/-- R16, R186: the block goes on with the collaborator's reply exactly when the bound of R186 admits it, and refuses the
step otherwise. -/
def Obligations.ServiceReplyIsBounded : Prop :=
  ∀ (v : BitVec 8) (s s' : State),
    let admitted := s'.pc = s.pc ∧ s'.run = s.run ∧ s'.cc = s.cc ∧ (∀ r, r ≠ .r0 → s'.readReg r = s.readReg r) ∧
      s'.mem = s.mem ∧ (v ≠ 0x20 → v ≠ 0x23 → s'.readReg .r0 = s.readReg .r0)
    (admitted → acceptService v s s' = .next s') ∧
      (¬ admitted → acceptService v s s' = .refused .serviceOutsideBound)

/-! ### Initialization -/

/-- R203, R45: what initialization leaves: the start address, cc 000, RUNNING, a first fetch at the start address;
without a memory image every word is as `P_MEM_INIT` gives it. -/
def Obligations.InitSetsPcCcAndRun : Prop :=
  ∀ (r : InitRequest) (s : State), init r = .ok s →
    s.pc = r.startPc ∧ s.cc = 0b000 ∧ s.run = .running ∧ s.fetch = s.memRead r.startPc ∧
    (r.memImage = .absent → ∀ a, s.memRead a = r.memInit a)

/-- R199: line i of the memory image goes to (base + i) modulo 2^16, a later line overwriting an earlier one, and every
other word is as `P_MEM_INIT` gives it. -/
def Obligations.MemoryImageIsLoaded : Prop :=
  ∀ (r : InitRequest) (lines : List (List Char)) (ws : List Word) (s : State),
    r.memImage = .present lines → lines = ws.map renderBits → init r = .ok s →
    (∀ (k : Nat) (h : k < ws.length),
      (∀ j, k < j → j < ws.length → r.loadBase + BitVec.ofNat 16 j ≠ r.loadBase + BitVec.ofNat 16 k) →
      s.memRead (r.loadBase + BitVec.ofNat 16 k) = ws[k]) ∧
    (∀ a, (∀ k, k < ws.length → a ≠ r.loadBase + BitVec.ofNat 16 k) → s.memRead a = r.memInit a)

/-- An initialization completes when its memory image is absent or made of words' lines and its register image is absent
or made of decimal integers (R197, R199, R201). A register image of eight or more values loads the first eight modulo
2^16; fewer, or no image, zero all eight (R201). A token that is no decimal integer leaves no state, wherever it stands:
that this holds after the eighth value too is the model's choice (log 12), as are what separates tokens (log 13) and what
a decimal integer is (log 12). -/
def Obligations.RegisterImageIsLoaded : Prop :=
  ∀ (r : InitRequest),
    ((r.memImage = .absent ∨ ∃ ws : List Word, r.memImage = .present (ws.map renderBits)) →
      (r.regImage = .absent ∨ ∃ text, r.regImage = .present text ∧ ∀ t ∈ tokens text, parseDecimal t ≠ none) →
      ∃ s, init r = .ok s) ∧
    (∀ (text : List Char) (vs : List Int) (s : State), r.regImage = .present text →
      parseValues (tokens text) = some vs → init r = .ok s →
      (∀ h : 8 ≤ vs.length, s.regs.toList = [vs[0], vs[1], vs[2], vs[3], vs[4], vs[5], vs[6], vs[7]].map
        fun v => BitVec.ofInt 16 v) ∧
      (vs.length < 8 → ∀ q, s.readReg q = 0x0000)) ∧
    (∀ s : State, r.regImage = .absent → init r = .ok s → ∀ q, s.readReg q = 0x0000) ∧
    (∀ text t, r.regImage = .present text → t ∈ tokens text → parseDecimal t = none → ∀ s, init r ≠ .ok s)

/-- R200, R202: a memory image that cannot be opened or has a line that is no word's line, and a register image that
cannot be opened, leave no state. -/
def Obligations.BadImagesLeaveNoState : Prop :=
  ∀ r : InitRequest,
    (r.memImage = .unreadable ∨ r.regImage = .unreadable ∨
      (∃ lines l, r.memImage = .present lines ∧ l ∈ lines ∧ ∀ w, l ≠ renderBits w)) →
    ∀ s, init r ≠ .ok s

/-- The reset state is the initialization without images, at the start address and with the memory the model chose
(log 1, log 2, log 8). -/
def Obligations.ResetIsAnInit : Prop :=
  init { startPc := Config.resetPc, memInit := fun _ => 0x0000, memImage := .absent, loadBase := 0,
         regImage := .absent } = .ok State.reset

/-! ### Interface -/

/-- R49, R50: pc_out is the pc after the step; end_of_program is 1 exactly when the fetched word was 0x0000, which is
when the step halts with cause ZERO_WORD. -/
def Obligations.StepOutputsAreExact : Prop :=
  ∀ s t : State, step s = .next t →
    (stepOutput s t).pcOut = t.pc ∧
    ((stepOutput s t).endOfProgram = true ↔ s.mem.read s.pc = 0x0000) ∧
    ((stepOutput s t).endOfProgram = true ↔ (stepOutput s t).run = .halted .zeroWord)

/-- R51: the block calls the collaborator exactly in a TRAP step whose vector is in 0x20..0x25, hands over the vector and
its state after the increment, and goes on with the state it gets back (halting after vector 0x25). -/
def Obligations.ServiceIsCalledForSixVectors : Prop :=
  ∀ (s h : State) (v : BitVec 8),
    (serviceCall s = some (v, h) ↔
      s.run = .running ∧ (s.mem.read s.pc).toNat / 4096 = 0xF ∧ v.toNat = (s.mem.read s.pc).toNat % 256 ∧
        0x20 ≤ v.toNat ∧ v.toNat ≤ 0x25 ∧ h = { s with pc := s.pc + 1 }) ∧
    (serviceCall s = some (v, h) → ∀ u, trapService v h = .next u →
      step s = .next (if v = 0x25 then { u with pc := 0x0000, run := .halted .trapHalt } else u))

/-- R52: a caller write is read back, leaves every other word, and takes effect before the next fetch. -/
def Obligations.CallerWriteTakesEffect : Prop :=
  ∀ (s : State) (a v : Word),
    (∀ b, callerRead (callerWrite s a v) b = if b = a then v else callerRead s b) ∧
    (s.run = .running → a = s.pc →
      step (callerWrite s a v) = exec (decode v) { callerWrite s a v with pc := s.pc + 1 })

/-- R195: a caller that also stops on the sentinel stops no later than one that stops on HALTED. -/
def Obligations.SentinelCallerStopsNoLater : Prop :=
  ∀ (fuel : Nat) (s t : State), callerRun .onHalted fuel s = some t →
    ∃ n u, n ≤ fuel ∧ callerRun .onSentinel n s = some u ∧ (u.pc = 0x0000 ∨ u = t)

/-! ### The assembler contract -/

/-- R116 with R89, R90 and R132: a label offset that fits its field takes the incremented pc to the label. -/
def Obligations.LabelOffsetReachesTheLabel : Prop :=
  ∀ (n : Nat) (a c : Word), n ∈ [5, 6, 9, 11] → -(2 ^ (n - 1)) ≤ labelOffset a c → labelOffset a c < 2 ^ (n - 1) →
    c + 1 + sext (fieldOf n (labelOffset a c)) = a

/-- R118: a value is rendered in a field of n bits modulo 2^n. -/
def Obligations.FieldsTruncateSilently : Prop :=
  ∀ (n : Nat) (v : Int), ((fieldOf n v).toNat : Int) = v % 2 ^ n

/-- R58, R198, R127: a line is a word's line exactly when it is the word's 16 characters, bit 15 first. -/
def Obligations.BinaryLinesAreWords : Prop :=
  ∀ (cs : List Char) (w : Word), parseBits cs = some w ↔
    cs.length = 16 ∧ ∀ i < 16, cs[i]? = some (if w.getLsbD (15 - i) then '1' else '0')

/-- R127, R206: the hexadecimal line of a word, mapped nibble by nibble, is its binary line. -/
def Obligations.HexLinesConvertToBinary : Prop :=
  ∀ w : Word, hexLineToBinary (renderHex w) = some (renderBits w)

/-- R111, R112: the first pass counts for a line the words the second pass emits for it. -/
def Obligations.PassesAgreeOnLength : Prop :=
  ∀ (p : AsmParams) (tab : Symbols) (c : Word) (line : List Char) (out : List OutLine) (n : Nat),
    (parseLine p line).body ≠ .unknown → bodyLength (parseLine p line).body = .ok n →
    emitBody p tab c (parseLine p line).body = .ok out → out.length = n

/-- R5, R104, R121: the word of an assembled instruction line decodes to the variant the line was assembled to, and is
never the end-of-program word. -/
def Obligations.AssembledWordsDecodeBack : Prop :=
  ∀ (p : AsmParams) (tab : Symbols) (c : Word) (t : Token) (m : Mnemonic) (ops : List Token) (i : Instr),
    (t, m) ∈ mnemonicTable → assembleInstr p tab c m ops = .ok i → decode (encode i) = i ∧ encode i ≠ 0x0000
end

