-- ==== Sys2Proof/Laws/Assembler.lean ====
section
/-! SUPPORT. The assembler's output order (30_encoding.md R127): `byAddress` loses no line, puts the lines in address
order, and leaves lines that are in order, as those of a program with one `.ORIG` are, where they stand. -/

namespace Sys2Proof.Machine

/-- Positions never fall along the list. -/
def InAddressOrder (ls : List PlacedLine) : Prop := ls.Pairwise fun a b => a.1 ≤ b.1

theorem insertLine_perm (e : PlacedLine) (ls : List PlacedLine) : (insertLine e ls).Perm (e :: ls) := by
  induction ls with
  | nil => exact .refl _
  | cons f rest ih =>
    rw [insertLine]
    split
    · exact .refl _
    · exact (ih.cons f).trans (.swap e f rest)

/-- The output has the lines of the second pass, each as often. -/
theorem byAddress_perm (ls : List PlacedLine) : (byAddress ls).Perm ls := by
  induction ls with
  | nil => exact .refl _
  | cons e rest ih => exact (insertLine_perm e _).trans (ih.cons e)

theorem insertLine_inAddressOrder {e : PlacedLine} {ls : List PlacedLine} (h : InAddressOrder ls) :
    InAddressOrder (insertLine e ls) := by
  induction ls with
  | nil => exact List.pairwise_singleton _ _
  | cons f rest ih =>
    obtain ⟨hf, hr⟩ := List.pairwise_cons.mp h
    rw [insertLine]
    split
    · rename_i hle
      refine List.pairwise_cons.mpr ⟨fun g hg => ?_, h⟩
      rcases List.mem_cons.mp hg with rfl | hg
      · exact hle
      · exact hle.trans (hf g hg)
    · rename_i hle
      refine List.pairwise_cons.mpr ⟨fun g hg => ?_, ih hr⟩
      rcases List.mem_cons.mp ((insertLine_perm e rest).mem_iff.mp hg) with rfl | hg
      · exact Nat.le_of_not_le hle
      · exact hf g hg

/-- The output is in address order. -/
theorem byAddress_inAddressOrder (ls : List PlacedLine) : InAddressOrder (byAddress ls) := by
  induction ls with
  | nil => exact .nil
  | cons e rest ih => exact insertLine_inAddressOrder ih

/-- Lines in address order stay where they are: lines at one position keep their source order. -/
theorem byAddress_of_inAddressOrder {ls : List PlacedLine} (h : InAddressOrder ls) : byAddress ls = ls := by
  induction ls with
  | nil => rfl
  | cons e rest ih =>
    obtain ⟨he, hr⟩ := List.pairwise_cons.mp h
    rw [byAddress, ih hr]
    cases rest with
    | nil => rfl
    | cons f rest => rw [insertLine, if_pos (he f (by simp))]

end Sys2Proof.Machine
end

