-- ==== Sys2Proof/Laws/Decode.lean ====
section
/-! SUPPORT. Fields as arithmetic, the number of every canonical word, and what the decoder makes of it. -/

namespace Sys2Proof

/-! ### Fields -/

/-- `w[lo+len-1 : lo]` as a number. -/
theorem field_toNat (w : Word) (lo len : Nat) : (field w lo len).toNat = w.toNat / 2 ^ lo % 2 ^ len := by
  simp [field, BitVec.extractLsb'_toNat, Nat.shiftRight_eq_div_pow]

/-- A field is the number it reads. -/
theorem field_eq (w : Word) (lo len : Nat) : field w lo len = BitVec.ofNat len (w.toNat / 2 ^ lo) := by
  apply BitVec.eq_of_toNat_eq
  rw [field_toNat, BitVec.toNat_ofNat]

/-- Concatenation as arithmetic: the right part fills the low bits. -/
theorem toNat_append_eq {m n : Nat} (x : BitVec m) (y : BitVec n) :
    (x ++ y).toNat = x.toNat * 2 ^ n + y.toNat := by
  rw [BitVec.toNat_append, ← Nat.shiftLeft_add_eq_or_of_lt y.isLt, Nat.shiftLeft_eq]

@[simp] theorem Reg.ofField_toField (r : Reg) : Reg.ofField r.toField = r := by cases r <;> rfl

/-- Register index fields and registers are the same eight things. -/
theorem Reg.toField_ofField (b : BitVec 3) : (Reg.ofField b).toField = b := by
  revert b; decide

theorem Reg.toField_inj {r q : Reg} : r.toField = q.toField ↔ r = q := by
  constructor
  · intro h; rw [← Reg.ofField_toField r, h, Reg.ofField_toField]
  · rintro rfl; rfl

theorem Reg.toField_lt (r : Reg) : r.toField.toNat < 8 := r.toField.isLt

/-! ### The decoder on a word whose opcode is known -/

/-- The opcode field (40_fetch_decode.md R134). -/
theorem opcode_toNat (w : Word) : (field w 12 4).toNat = w.toNat / 4096 := by
  rw [field_toNat]; have := w.isLt; omega

theorem decode_zero : decode 0 = .endOfProgram := rfl

/-- The decoder reads nothing but the number of the word (30_encoding.md R105), here written as its quotients. -/
theorem decode_eq {w : Word} (h : w ≠ 0) :
    decode w =
      match w.toNat / 4096 with
      | 0b0000 => .br (field w 9 3) (field w 0 9)
      | 0b0001 =>
        if w.toNat / 32 % 2 = 0 then .add (regHigh w) (regMid w) (regLow w)
        else .addI (regHigh w) (regMid w) (field w 0 5)
      | 0b0010 => .ld (regHigh w) (field w 0 9)
      | 0b0011 => .st (regHigh w) (field w 0 9)
      | 0b0100 => if w.toNat / 2048 % 2 = 1 then .jsr (field w 0 11) else .jsrr (regMid w)
      | 0b0101 =>
        if w.toNat / 32 % 2 = 0 then .and (regHigh w) (regMid w) (regLow w)
        else .andI (regHigh w) (regMid w) (field w 0 5)
      | 0b0110 => .ldr (regHigh w) (regMid w) (field w 0 6)
      | 0b0111 => .str (regHigh w) (regMid w) (field w 0 6)
      | 0b1000 => .rti
      | 0b1001 => .not (regHigh w) (regMid w)
      | 0b1010 => .ldi (regHigh w) (field w 0 9)
      | 0b1011 => .sti (regHigh w) (field w 0 9)
      | 0b1100 => .jmp (regMid w)
      | 0b1101 => .unrecognized
      | 0b1110 => .lea (regHigh w) (field w 0 9)
      | _ => .trap (field w 0 8) := by
  have h5 : (field w 5 1 = 0) = (w.toNat / 32 % 2 = 0) := by
    rw [← BitVec.toNat_inj, field_toNat]; rfl
  have h11 : (field w 11 1 = 1) = (w.toNat / 2048 % 2 = 1) := by
    rw [← BitVec.toNat_inj, field_toNat]; rfl
  unfold decode
  rw [if_neg h, opcode_toNat]
  simp only [h5, h11] <;> rfl

/-- A word whose number is not zero is not the end-of-program word. -/
theorem ne_zero_of_toNat {w : Word} (h : 0 < w.toNat) : w ≠ 0 := by
  rintro rfl; simp at h

/-! ### The decoder, one lemma an opcode (30_encoding.md R96) -/

theorem decode_br {w : Word} (h0 : w ≠ 0) (h : w.toNat / 4096 = 0) :
    decode w = .br (field w 9 3) (field w 0 9) := by
  rw [decode_eq h0, h]; rfl

theorem decode_add {w : Word} (h : w.toNat / 4096 = 1) (h' : w.toNat / 32 % 2 = 0) :
    decode w = .add (regHigh w) (regMid w) (regLow w) := by
  rw [decode_eq (ne_zero_of_toNat (by omega)), h]; exact if_pos h'

theorem decode_addI {w : Word} (h : w.toNat / 4096 = 1) (h' : w.toNat / 32 % 2 = 1) :
    decode w = .addI (regHigh w) (regMid w) (field w 0 5) := by
  rw [decode_eq (ne_zero_of_toNat (by omega)), h]; exact if_neg (by omega)

theorem decode_ld {w : Word} (h : w.toNat / 4096 = 2) :
    decode w = .ld (regHigh w) (field w 0 9) := by
  rw [decode_eq (ne_zero_of_toNat (by omega)), h]; rfl

theorem decode_st {w : Word} (h : w.toNat / 4096 = 3) :
    decode w = .st (regHigh w) (field w 0 9) := by
  rw [decode_eq (ne_zero_of_toNat (by omega)), h]; rfl

theorem decode_jsr {w : Word} (h : w.toNat / 4096 = 4) (h' : w.toNat / 2048 % 2 = 1) :
    decode w = .jsr (field w 0 11) := by
  rw [decode_eq (ne_zero_of_toNat (by omega)), h]; exact if_pos h'

theorem decode_jsrr {w : Word} (h : w.toNat / 4096 = 4) (h' : w.toNat / 2048 % 2 = 0) :
    decode w = .jsrr (regMid w) := by
  rw [decode_eq (ne_zero_of_toNat (by omega)), h]; exact if_neg (by omega)

theorem decode_and {w : Word} (h : w.toNat / 4096 = 5) (h' : w.toNat / 32 % 2 = 0) :
    decode w = .and (regHigh w) (regMid w) (regLow w) := by
  rw [decode_eq (ne_zero_of_toNat (by omega)), h]; exact if_pos h'

theorem decode_andI {w : Word} (h : w.toNat / 4096 = 5) (h' : w.toNat / 32 % 2 = 1) :
    decode w = .andI (regHigh w) (regMid w) (field w 0 5) := by
  rw [decode_eq (ne_zero_of_toNat (by omega)), h]; exact if_neg (by omega)

theorem decode_ldr {w : Word} (h : w.toNat / 4096 = 6) :
    decode w = .ldr (regHigh w) (regMid w) (field w 0 6) := by
  rw [decode_eq (ne_zero_of_toNat (by omega)), h]; rfl

theorem decode_str {w : Word} (h : w.toNat / 4096 = 7) :
    decode w = .str (regHigh w) (regMid w) (field w 0 6) := by
  rw [decode_eq (ne_zero_of_toNat (by omega)), h]; rfl

theorem decode_rti {w : Word} (h : w.toNat / 4096 = 8) :
    decode w = .rti := by
  rw [decode_eq (ne_zero_of_toNat (by omega)), h]; rfl

theorem decode_not {w : Word} (h : w.toNat / 4096 = 9) :
    decode w = .not (regHigh w) (regMid w) := by
  rw [decode_eq (ne_zero_of_toNat (by omega)), h]; rfl

theorem decode_ldi {w : Word} (h : w.toNat / 4096 = 10) :
    decode w = .ldi (regHigh w) (field w 0 9) := by
  rw [decode_eq (ne_zero_of_toNat (by omega)), h]; rfl

theorem decode_sti {w : Word} (h : w.toNat / 4096 = 11) :
    decode w = .sti (regHigh w) (field w 0 9) := by
  rw [decode_eq (ne_zero_of_toNat (by omega)), h]; rfl

theorem decode_jmp {w : Word} (h : w.toNat / 4096 = 12) :
    decode w = .jmp (regMid w) := by
  rw [decode_eq (ne_zero_of_toNat (by omega)), h]; rfl

theorem decode_unrecognized {w : Word} (h : w.toNat / 4096 = 13) :
    decode w = .unrecognized := by
  rw [decode_eq (ne_zero_of_toNat (by omega)), h]; rfl

theorem decode_lea {w : Word} (h : w.toNat / 4096 = 14) :
    decode w = .lea (regHigh w) (field w 0 9) := by
  rw [decode_eq (ne_zero_of_toNat (by omega)), h]; rfl

theorem decode_trap {w : Word} (h : w.toNat / 4096 = 15) :
    decode w = .trap (field w 0 8) := by
  rw [decode_eq (ne_zero_of_toNat (by omega)), h]; rfl

/-! ### The fields of a word built as a sum -/

theorem regHigh_of {w : Word} {r : Reg} (h : w.toNat / 512 % 8 = r.toField.toNat) : regHigh w = r := by
  have : field w 9 3 = r.toField := BitVec.eq_of_toNat_eq (by rw [field_toNat]; exact h)
  rw [regHigh, this, Reg.ofField_toField]

theorem regMid_of {w : Word} {r : Reg} (h : w.toNat / 64 % 8 = r.toField.toNat) : regMid w = r := by
  have : field w 6 3 = r.toField := BitVec.eq_of_toNat_eq (by rw [field_toNat]; exact h)
  rw [regMid, this, Reg.ofField_toField]

theorem regLow_of {w : Word} {r : Reg} (h : w.toNat % 8 = r.toField.toNat) : regLow w = r := by
  have : field w 0 3 = r.toField := BitVec.eq_of_toNat_eq (by rw [field_toNat]; simpa using h)
  rw [regLow, this, Reg.ofField_toField]

theorem field_of {w : Word} {lo len : Nat} {b : BitVec len} (h : w.toNat / 2 ^ lo % 2 ^ len = b.toNat) :
    field w lo len = b := BitVec.eq_of_toNat_eq (by rw [field_toNat]; exact h)

/-! ### The number of the canonical word of every instruction -/

theorem encode_add (dr sr1 sr2 : Reg) : (encode (.add dr sr1 sr2)).toNat =
    4096 + dr.toField.toNat * 512 + sr1.toField.toNat * 64 + sr2.toField.toNat := by
  simp only [encode, toNat_append_eq]; simp; omega

theorem encode_addI (dr sr1 : Reg) (imm5 : BitVec 5) : (encode (.addI dr sr1 imm5)).toNat =
    4096 + dr.toField.toNat * 512 + sr1.toField.toNat * 64 + 32 + imm5.toNat := by
  simp only [encode, toNat_append_eq]; simp; omega

theorem encode_and (dr sr1 sr2 : Reg) : (encode (.and dr sr1 sr2)).toNat =
    5 * 4096 + dr.toField.toNat * 512 + sr1.toField.toNat * 64 + sr2.toField.toNat := by
  simp only [encode, toNat_append_eq]; simp; omega

theorem encode_andI (dr sr1 : Reg) (imm5 : BitVec 5) : (encode (.andI dr sr1 imm5)).toNat =
    5 * 4096 + dr.toField.toNat * 512 + sr1.toField.toNat * 64 + 32 + imm5.toNat := by
  simp only [encode, toNat_append_eq]; simp; omega

theorem encode_br (nzp : BitVec 3) (off9 : BitVec 9) : (encode (.br nzp off9)).toNat =
    nzp.toNat * 512 + off9.toNat := by
  simp only [encode, toNat_append_eq]; simp

theorem encode_jmp (base : Reg) : (encode (.jmp base)).toNat = 12 * 4096 + base.toField.toNat * 64 := by
  simp only [encode, toNat_append_eq]; simp; omega

theorem encode_jsr (off11 : BitVec 11) : (encode (.jsr off11)).toNat = 4 * 4096 + 2048 + off11.toNat := by
  simp only [encode, toNat_append_eq]; simp

theorem encode_jsrr (base : Reg) : (encode (.jsrr base)).toNat = 4 * 4096 + base.toField.toNat * 64 := by
  simp only [encode, toNat_append_eq]; simp; omega

theorem encode_ld (dr : Reg) (off9 : BitVec 9) : (encode (.ld dr off9)).toNat =
    2 * 4096 + dr.toField.toNat * 512 + off9.toNat := by
  simp only [encode, toNat_append_eq]; simp; omega

theorem encode_ldi (dr : Reg) (off9 : BitVec 9) : (encode (.ldi dr off9)).toNat =
    10 * 4096 + dr.toField.toNat * 512 + off9.toNat := by
  simp only [encode, toNat_append_eq]; simp; omega

theorem encode_ldr (dr base : Reg) (off6 : BitVec 6) : (encode (.ldr dr base off6)).toNat =
    6 * 4096 + dr.toField.toNat * 512 + base.toField.toNat * 64 + off6.toNat := by
  simp only [encode, toNat_append_eq]; simp; omega

theorem encode_lea (dr : Reg) (off9 : BitVec 9) : (encode (.lea dr off9)).toNat =
    14 * 4096 + dr.toField.toNat * 512 + off9.toNat := by
  simp only [encode, toNat_append_eq]; simp; omega

theorem encode_not (dr sr : Reg) : (encode (.not dr sr)).toNat =
    9 * 4096 + dr.toField.toNat * 512 + sr.toField.toNat * 64 + 63 := by
  simp only [encode, toNat_append_eq]; simp; omega

theorem encode_st (sr : Reg) (off9 : BitVec 9) : (encode (.st sr off9)).toNat =
    3 * 4096 + sr.toField.toNat * 512 + off9.toNat := by
  simp only [encode, toNat_append_eq]; simp; omega

theorem encode_sti (sr : Reg) (off9 : BitVec 9) : (encode (.sti sr off9)).toNat =
    11 * 4096 + sr.toField.toNat * 512 + off9.toNat := by
  simp only [encode, toNat_append_eq]; simp; omega

theorem encode_str (sr base : Reg) (off6 : BitVec 6) : (encode (.str sr base off6)).toNat =
    7 * 4096 + sr.toField.toNat * 512 + base.toField.toNat * 64 + off6.toNat := by
  simp only [encode, toNat_append_eq]; simp; omega

theorem encode_trap (v : BitVec 8) : (encode (.trap v)).toNat = 15 * 4096 + v.toNat := by
  simp only [encode, toNat_append_eq]; simp

/-! ### Names -/

/-- The six named vectors, and every other one. -/
theorem nameTrap_cases (v : BitVec 8) :
    (v = 0x20 ∧ nameTrap v = .getc) ∨ (v = 0x21 ∧ nameTrap v = .out) ∨ (v = 0x22 ∧ nameTrap v = .puts) ∨
    (v = 0x23 ∧ nameTrap v = .inp) ∨ (v = 0x24 ∧ nameTrap v = .putsp) ∨ (v = 0x25 ∧ nameTrap v = .halt) ∨
    ((v.toNat < 0x20 ∨ 0x25 < v.toNat) ∧ nameTrap v = .trap v) := by
  revert v; decide

/-- A variant and its row's constructor stand for the same variant. -/
@[simp] theorem Instr.core_named (i : Instr) : i.named.core = i.core := by
  cases i <;> try rfl
  case jmp base => cases base <;> rfl
  case trap v =>
    show (nameTrap v).core = .trap v
    rcases nameTrap_cases v with ⟨rfl, h⟩ | ⟨rfl, h⟩ | ⟨rfl, h⟩ | ⟨rfl, h⟩ | ⟨rfl, h⟩ | ⟨rfl, h⟩ | ⟨_, h⟩ <;> rw [h] <;> rfl

/-- A variant of R103 stands for itself. -/
theorem Instr.core_of_isCore {i : Instr} (h : i.isCore = true) : i.core = i := by
  cases i <;> first | rfl | simp [Instr.isCore] at h

/-- An instruction and the variant it stands for have one word. -/
@[simp] theorem encode_core (i : Instr) : encode i.core = encode i := by cases i <;> rfl

end Sys2Proof
end

