-- ==== Sys2Proof/Laws/State.lean ====
section
/-! SUPPORT. What each update of the state does to each field, one lemma a field and an update, and what a register
write does to a register read. -/

namespace Sys2Proof.Machine

@[simp] theorem Regs.read_write (x : Regs) (r q : Reg) (v : Word) :
    (x.write r v).read q = if q = r then v else x.read q := by
  cases r <;> cases q <;> rfl

theorem Regs.read_write_same (x : Regs) (r : Reg) (v : Word) : (x.write r v).read r = v := by simp

theorem Regs.read_write_other (x : Regs) {r q : Reg} (v : Word) (h : q ≠ r) : (x.write r v).read q = x.read q := by
  simp [h]

@[simp] theorem State.writeReg_regs (s : State) (r : Reg) (v : Word) : (s.writeReg r v).regs = s.regs.write r v := rfl
@[simp] theorem State.writeReg_pc (s : State) (r : Reg) (v : Word) : (s.writeReg r v).pc = s.pc := rfl
@[simp] theorem State.writeReg_cc (s : State) (r : Reg) (v : Word) : (s.writeReg r v).cc = s.cc := rfl
@[simp] theorem State.writeReg_mem (s : State) (r : Reg) (v : Word) : (s.writeReg r v).mem = s.mem := rfl
@[simp] theorem State.writeReg_run (s : State) (r : Reg) (v : Word) : (s.writeReg r v).run = s.run := rfl
@[simp] theorem State.writeReg_draws (s : State) (r : Reg) (v : Word) : (s.writeReg r v).draws = s.draws := rfl

@[simp] theorem State.setPc_regs (s : State) (t : Word) : (s.setPc t).regs = s.regs := rfl
@[simp] theorem State.setPc_pc (s : State) (t : Word) : (s.setPc t).pc = t := rfl
@[simp] theorem State.setPc_cc (s : State) (t : Word) : (s.setPc t).cc = s.cc := rfl
@[simp] theorem State.setPc_mem (s : State) (t : Word) : (s.setPc t).mem = s.mem := rfl
@[simp] theorem State.setPc_run (s : State) (t : Word) : (s.setPc t).run = s.run := rfl
@[simp] theorem State.setPc_draws (s : State) (t : Word) : (s.setPc t).draws = s.draws := rfl

@[simp] theorem State.memWrite_regs (s : State) (a v : Word) : (s.memWrite a v).regs = s.regs := rfl
@[simp] theorem State.memWrite_pc (s : State) (a v : Word) : (s.memWrite a v).pc = s.pc := rfl
@[simp] theorem State.memWrite_cc (s : State) (a v : Word) : (s.memWrite a v).cc = s.cc := rfl
@[simp] theorem State.memWrite_mem (s : State) (a v : Word) : (s.memWrite a v).mem = s.mem.write a v := rfl
@[simp] theorem State.memWrite_run (s : State) (a v : Word) : (s.memWrite a v).run = s.run := rfl
@[simp] theorem State.memWrite_draws (s : State) (a v : Word) : (s.memWrite a v).draws = s.draws := rfl

@[simp] theorem State.advance_regs (s : State) : (s.advance).regs = s.regs := rfl
@[simp] theorem State.advance_pc (s : State) : (s.advance).pc = s.pc + 1 := rfl
@[simp] theorem State.advance_cc (s : State) : (s.advance).cc = s.cc := rfl
@[simp] theorem State.advance_mem (s : State) : (s.advance).mem = s.mem := rfl
@[simp] theorem State.advance_run (s : State) : (s.advance).run = s.run := rfl
@[simp] theorem State.advance_draws (s : State) : (s.advance).draws = s.draws := rfl

@[simp] theorem State.haltWith_regs (s : State) (c : HaltCause) : (s.haltWith c).regs = s.regs := rfl
@[simp] theorem State.haltWith_pc (s : State) (c : HaltCause) : (s.haltWith c).pc = s.pc := rfl
@[simp] theorem State.haltWith_cc (s : State) (c : HaltCause) : (s.haltWith c).cc = s.cc := rfl
@[simp] theorem State.haltWith_mem (s : State) (c : HaltCause) : (s.haltWith c).mem = s.mem := rfl
@[simp] theorem State.haltWith_run (s : State) (c : HaltCause) : (s.haltWith c).run = .halted c := rfl
@[simp] theorem State.haltWith_draws (s : State) (c : HaltCause) : (s.haltWith c).draws = s.draws := rfl

@[simp] theorem State.setCC_regs (s : State) (v : Word) : (s.setCC v).regs = s.regs := rfl
@[simp] theorem State.setCC_pc (s : State) (v : Word) : (s.setCC v).pc = s.pc := rfl
@[simp] theorem State.setCC_cc (s : State) (v : Word) : (s.setCC v).cc = ccOf v := rfl
@[simp] theorem State.setCC_mem (s : State) (v : Word) : (s.setCC v).mem = s.mem := rfl
@[simp] theorem State.setCC_run (s : State) (v : Word) : (s.setCC v).run = s.run := rfl
@[simp] theorem State.setCC_draws (s : State) (v : Word) : (s.setCC v).draws = s.draws := rfl

@[simp] theorem State.writeResult_regs (s : State) (r : Reg) (v : Word) : (s.writeResult r v).regs = s.regs.write r v := rfl
@[simp] theorem State.writeResult_pc (s : State) (r : Reg) (v : Word) : (s.writeResult r v).pc = s.pc := rfl
@[simp] theorem State.writeResult_cc (s : State) (r : Reg) (v : Word) : (s.writeResult r v).cc = ccOf v := rfl
@[simp] theorem State.writeResult_mem (s : State) (r : Reg) (v : Word) : (s.writeResult r v).mem = s.mem := rfl
@[simp] theorem State.writeResult_run (s : State) (r : Reg) (v : Word) : (s.writeResult r v).run = s.run := rfl
@[simp] theorem State.writeResult_draws (s : State) (r : Reg) (v : Word) : (s.writeResult r v).draws = s.draws := rfl

@[simp] theorem State.link_regs (s : State) : (s.link).regs = s.regs.write .r7 s.pc := rfl
@[simp] theorem State.link_pc (s : State) : (s.link).pc = s.pc := rfl
@[simp] theorem State.link_cc (s : State) : (s.link).cc = s.cc := rfl
@[simp] theorem State.link_mem (s : State) : (s.link).mem = s.mem := rfl
@[simp] theorem State.link_run (s : State) : (s.link).run = s.run := rfl
@[simp] theorem State.link_draws (s : State) : (s.link).draws = s.draws := rfl

@[simp] theorem State.haltSentinel_regs (s : State) : (s.haltSentinel).regs = s.regs := rfl
@[simp] theorem State.haltSentinel_pc (s : State) : (s.haltSentinel).pc = 0x0000 := rfl
@[simp] theorem State.haltSentinel_cc (s : State) : (s.haltSentinel).cc = s.cc := rfl
@[simp] theorem State.haltSentinel_mem (s : State) : (s.haltSentinel).mem = s.mem := rfl
@[simp] theorem State.haltSentinel_run (s : State) : (s.haltSentinel).run = .halted .trapHalt := rfl
@[simp] theorem State.haltSentinel_draws (s : State) : (s.haltSentinel).draws = s.draws := rfl

@[simp] theorem State.readReg_def (s : State) (r : Reg) : s.readReg r = s.regs.read r := rfl
@[simp] theorem State.memRead_def (s : State) (a : Word) : s.memRead a = s.mem.read a := rfl

end Sys2Proof.Machine
end

