-- ==== Sys2Proof/Laws/Service.lean ====
section
/-! SUPPORT. The TRAP handler: what the I/O collaborator's call can do, once for every vector. -/

namespace Sys2Proof.Machine

/-- The model's collaborator stays inside the bound of 60_exceptions.md R186. -/
theorem serviceAdmits_collaborator (v : BitVec 8) (s : State) : serviceAdmits v s (collaborator v s) = true := by
  by_cases h : drawsInput v = true <;> simp [serviceAdmits, collaborator, h]

/-- So a service call always goes on with the collaborator's state. -/
@[simp] theorem trapService_eq (v : BitVec 8) (s : State) : trapService v s = .next (collaborator v s) := by
  simp [trapService, acceptService, serviceAdmits_collaborator]

/-- GETC and IN: R0 is the drawn value and the draw is counted. -/
theorem collaborator_draws {v : BitVec 8} (h : drawsInput v = true) (s : State) :
    collaborator v s = { s.writeReg .r0 (serviceValue v s) with draws := s.draws + 1 } := if_pos h

/-- Every other routine changes nothing. -/
theorem collaborator_other {v : BitVec 8} (h : drawsInput v = false) (s : State) : collaborator v s = s := by
  simp [collaborator, h]

/-- The state after a TRAP (46_system.md R172 to R175). -/
def afterTrap (v : BitVec 8) (s : State) : State :=
  if recognizedVector v then (if v = 0x25 then (collaborator v s).haltSentinel else collaborator v s) else s

/-- The TRAP handler completes for every vector. -/
theorem trapCall_eq (v : BitVec 8) (s : State) : trapCall v s = .next (afterTrap v s) := by
  by_cases h : recognizedVector v = true
  · simp only [trapCall, afterTrap, h, if_true, trapService_eq, andThen]
  · simp [trapCall, afterTrap, h]

/-- Everything a TRAP can do: vector 0x25 halts at the sentinel, GETC and IN draw a value into R0, and every other
vector changes nothing. -/
theorem afterTrap_cases (v : BitVec 8) (s : State) :
    (v = 0x25 ∧ afterTrap v s = s.haltSentinel) ∨
    (v ≠ 0x25 ∧ drawsInput v = true ∧
      afterTrap v s = { s.writeReg .r0 (serviceValue v s) with draws := s.draws + 1 }) ∨
    (v ≠ 0x25 ∧ drawsInput v = false ∧ afterTrap v s = s) := by
  by_cases h25 : v = 0x25
  · subst h25; exact .inl ⟨rfl, rfl⟩
  · cases hd : drawsInput v with
    | true =>
      have hr : recognizedVector v = true := by
        rcases (by simpa [drawsInput] using hd : v = 0x20 ∨ v = 0x23) with rfl | rfl <;> rfl
      refine .inr (.inl ⟨h25, rfl, ?_⟩)
      rw [afterTrap, if_pos hr, if_neg h25, collaborator_draws hd]
    | false =>
      refine .inr (.inr ⟨h25, rfl, ?_⟩)
      rw [afterTrap, if_neg h25, collaborator_other hd, ite_self]

@[simp] theorem afterTrap_cc (v : BitVec 8) (s : State) : (afterTrap v s).cc = s.cc := by
  rcases afterTrap_cases v s with ⟨_, h⟩ | ⟨_, _, h⟩ | ⟨_, _, h⟩ <;> rw [h] <;> rfl

@[simp] theorem afterTrap_mem (v : BitVec 8) (s : State) : (afterTrap v s).mem = s.mem := by
  rcases afterTrap_cases v s with ⟨_, h⟩ | ⟨_, _, h⟩ | ⟨_, _, h⟩ <;> rw [h] <;> rfl

theorem afterTrap_pc (v : BitVec 8) (s : State) : (afterTrap v s).pc = if v = 0x25 then 0x0000 else s.pc := by
  rcases afterTrap_cases v s with ⟨hv, h⟩ | ⟨hv, _, h⟩ | ⟨hv, _, h⟩ <;> rw [h] <;> first | rw [if_pos hv] | rw [if_neg hv]
  · rfl
  · rfl

theorem afterTrap_run (v : BitVec 8) (s : State) :
    (afterTrap v s).run = if v = 0x25 then .halted .trapHalt else s.run := by
  rcases afterTrap_cases v s with ⟨hv, h⟩ | ⟨hv, _, h⟩ | ⟨hv, _, h⟩ <;> rw [h] <;> first | rw [if_pos hv] | rw [if_neg hv]
  · rfl
  · rfl

/-- A vector outside 0x20..0x25 is a no-op (R175). -/
theorem afterTrap_unrecognized {v : BitVec 8} (h : recognizedVector v = false) (s : State) : afterTrap v s = s := by
  simp [afterTrap, h]

end Sys2Proof.Machine
end

