-- ==== Sys2Proof/Laws/Exec.lean ====
section
/-! SUPPORT. What a handler and a step can do, said once: every handler completes, with the effect below. Later proofs
cite these lemmas and do not unfold `exec`. -/

namespace Sys2Proof.Machine

/-- The state a handler leaves. -/
def effect (i : Instr) (s : State) : State :=
  match i with
  | .endOfProgram => (s.setPc (zeroHaltTarget Config.zeroHaltPc s)).haltWith .zeroWord
  | .add dr sr1 sr2 => s.writeResult dr (s.readReg sr1 + s.readReg sr2)
  | .addI dr sr1 imm5 => s.writeResult dr (s.readReg sr1 + sext imm5)
  | .and dr sr1 sr2 => s.writeResult dr (s.readReg sr1 &&& s.readReg sr2)
  | .andI dr sr1 imm5 => s.writeResult dr (s.readReg sr1 &&& sext imm5)
  | .br nzp off9 => if branchTaken nzp s.cc then s.setPc (pcRelative s off9) else s
  | .jmp base => s.setPc (s.readReg base)
  | .ret => s.setPc (s.readReg .r7)
  | .jsr off11 => s.link.setPc (pcRelative s off11)
  | .jsrr base => s.link.setPc (jsrrTarget Config.jsrrLinkFirst base s)
  | .ld dr off9 => s.writeResult dr (s.memRead (pcRelative s off9))
  | .ldi dr off9 => s.writeResult dr (s.memRead (pointer s off9))
  | .ldr dr base off6 => s.writeResult dr (s.memRead (basePlus s base off6))
  | .lea dr off9 => s.writeResult dr (pcRelative s off9)
  | .not dr sr => s.writeResult dr (~~~ s.readReg sr)
  | .st sr off9 => s.memWrite (pcRelative s off9) (s.readReg sr)
  | .sti sr off9 => s.memWrite (pointer s off9) (s.readReg sr)
  | .str sr base off6 => s.memWrite (basePlus s base off6) (s.readReg sr)
  | .rti => s
  | .trap v => afterTrap v s
  | .getc => afterTrap 0x20 s
  | .out => afterTrap 0x21 s
  | .puts => afterTrap 0x22 s
  | .inp => afterTrap 0x23 s
  | .putsp => afterTrap 0x24 s
  | .halt => afterTrap 0x25 s
  | .unrecognized => s

/-- Every handler answers its effect. -/
theorem exec_eq (i : Instr) (s : State) : exec i s = .next (effect i s) := by
  cases i
  case trap v => exact trapCall_eq v s
  case getc => exact trapCall_eq 0x20 s
  case out => exact trapCall_eq 0x21 s
  case puts => exact trapCall_eq 0x22 s
  case inp => exact trapCall_eq 0x23 s
  case putsp => exact trapCall_eq 0x24 s
  case halt => exact trapCall_eq 0x25 s
  all_goals rfl

/-- The next state of a handler is its effect. -/
theorem exec_inv {i : Instr} {s t : State} (h : exec i s = .next t) : t = effect i s := by
  rw [exec_eq] at h; injection h with h; exact h.symm

/-- A step of a running block. -/
theorem step_eq {s : State} (h : s.run = .running) :
    step s = .next (effect (decode (s.mem.read s.pc)) s.advance) := by
  simp only [step, h]; exact exec_eq _ _

/-- A step of a halted block does not exist. -/
theorem step_halted {s : State} {c : HaltCause} (h : s.run = .halted c) : step s = .fault (.halted c) := by
  simp only [step, h]

/-- A step that answers a next state ran the decoded instruction in a running block. -/
theorem step_inv {s t : State} (h : step s = .next t) :
    s.run = .running ∧ t = effect (decode (s.mem.read s.pc)) s.advance := by
  cases hr : s.run with
  | running => rw [step_eq hr] at h; injection h with h; exact ⟨rfl, h.symm⟩
  | halted c => rw [step_halted hr] at h; cases h

/-- One step, then the rest of a run. -/
theorem core_run_succ {s t : State} (h : step s = .next t) (k : Nat) :
    Sys2Proof.core.run (k + 1) s = Sys2Proof.core.run k t := by
  have h : Sys2Proof.core.step s = .next t := h
  simp only [Host.Core.run, h]

end Sys2Proof.Machine
end

