-- ==== Sys2Proof/Laws/Memory.lean ====
section
/-! SUPPORT. Memory: what a read after a write gives, that every memory operation keeps the canonical form, and that the
canonical form of a content is unique. -/

namespace Sys2Proof.Machine

/-! ### The list under a memory -/

theorem Memory.lookup_filter_ne (m : Memory) (a b : Nat) :
    Memory.lookup (m.filter fun e => decide (e.1 ≠ a)) b = if b = a then Memory.unlisted else Memory.lookup m b := by
  induction m with
  | nil => simp [Memory.lookup]
  | cons e rest ih =>
    obtain ⟨k, v⟩ := e
    by_cases hk : k = a
    · subst hk
      by_cases hb : b = k
      · subst hb; simpa [List.filter, Memory.lookup] using ih
      · simpa [List.filter, Memory.lookup, hb, Ne.symm hb] using ih
    · by_cases hb : k = b
      · subst hb; simp [List.filter, Memory.lookup, hk]
      · simpa [List.filter, Memory.lookup, hk, hb] using ih

theorem Memory.lookup_insert (m : Memory) (a b : Nat) (v : Word) (h : ∀ e ∈ m, e.1 ≠ a) :
    Memory.lookup (Memory.insert m a v) b = if b = a then v else Memory.lookup m b := by
  induction m with
  | nil => simp [Memory.insert, Memory.lookup, eq_comm]
  | cons e rest ih =>
    obtain ⟨k, u⟩ := e
    have hk : k ≠ a := h (k, u) (by simp)
    have ih := ih fun e he => h e (by simp [he])
    simp only [Memory.insert]
    split
    · by_cases hb : b = a
      · subst hb; simp [Memory.lookup]
      · simp [Memory.lookup, hb, Ne.symm hb]
    · simp only [Memory.lookup, ih]
      by_cases hkb : k = b
      · subst hkb; simp [hk]
      · simp [hkb]

/-! ### Read after write -/

/-- A read after a write: the value written at the address written, the old word everywhere else. -/
@[simp] theorem Memory.read_write (m : Memory) (a b v : Word) :
    (m.write a v).read b = if b = a then v else m.read b := by
  have ne : ∀ e ∈ (m.filter fun e => decide (e.1 ≠ a.toNat)), e.1 ≠ a.toNat := by
    intro e he; simpa using (List.mem_filter.mp he).2
  unfold Memory.write Memory.read
  simp only
  split
  · rename_i hv
    rw [Memory.lookup_filter_ne]
    by_cases h : b = a
    · subst h; simp [hv]
    · simp [h, BitVec.toNat_inj]
  · rw [Memory.lookup_insert _ _ _ _ ne, Memory.lookup_filter_ne]
    by_cases h : b = a
    · subst h; simp
    · simp [h, BitVec.toNat_inj]

/-- A write of the word an unlisted address holds leaves no entry. -/
theorem Memory.write_unlisted (m : Memory) (a : Word) :
    m.write a Memory.unlisted = m.filter fun e => decide (e.1 ≠ a.toNat) := by
  simp [Memory.write]

/-! ### The canonical form -/

/-- `risesFrom` says that the first key is at least `least` and the keys after it rise from there. -/
theorem Memory.risesFrom_cons (least a : Nat) (v : Word) (rest : Memory) :
    Memory.risesFrom least ((a, v) :: rest) = true ↔ least ≤ a ∧ Memory.risesFrom (a + 1) rest = true := by
  simp [Memory.risesFrom]

theorem Memory.risesFrom_mono {m : Memory} : ∀ {l l' : Nat}, l' ≤ l →
    Memory.risesFrom l m = true → Memory.risesFrom l' m = true := by
  cases m with
  | nil => intros; rfl
  | cons e rest =>
    intro l l' h h1
    rw [Memory.risesFrom_cons] at *
    exact ⟨h.trans h1.1, h1.2⟩

/-- Every key of a list that rises from `l` is at least `l`. -/
theorem Memory.risesFrom_le {m : Memory} : ∀ {l : Nat}, Memory.risesFrom l m = true → ∀ e ∈ m, l ≤ e.1 := by
  induction m with
  | nil => simp
  | cons e rest ih =>
    intro l h f hf
    obtain ⟨k, v⟩ := e
    rw [Memory.risesFrom_cons] at h
    rcases List.mem_cons.mp hf with rfl | hf
    · exact h.1
    · exact (Nat.le_succ_of_le h.1).trans (ih h.2 f hf)

theorem Memory.risesFrom_filter {m : Memory} (p : Nat × Word → Bool) : ∀ {l : Nat},
    Memory.risesFrom l m = true → Memory.risesFrom l (m.filter p) = true := by
  induction m with
  | nil => intros; rfl
  | cons e rest ih =>
    intro l h
    obtain ⟨k, v⟩ := e
    rw [Memory.risesFrom_cons] at h
    by_cases hp : p (k, v)
    · rw [List.filter_cons_of_pos hp, Memory.risesFrom_cons]
      exact ⟨h.1, ih h.2⟩
    · rw [List.filter_cons_of_neg hp]
      exact Memory.risesFrom_mono (Nat.le_succ_of_le h.1) (ih h.2)

theorem Memory.risesFrom_insert {m : Memory} (a : Nat) (v : Word) : ∀ {l : Nat}, Memory.risesFrom l m = true →
    l ≤ a → (∀ e ∈ m, e.1 ≠ a) → Memory.risesFrom l (Memory.insert m a v) = true := by
  induction m with
  | nil => intro l _ hl _; simp [Memory.insert, Memory.risesFrom, hl]
  | cons e rest ih =>
    intro l h hl hne
    obtain ⟨k, u⟩ := e
    rw [Memory.risesFrom_cons] at h
    simp only [Memory.insert]
    split
    · rename_i hlt
      rw [Memory.risesFrom_cons, Memory.risesFrom_cons]
      exact ⟨hl, hlt, h.2⟩
    · rename_i hlt
      have hk : k ≠ a := hne (k, u) (by simp)
      rw [Memory.risesFrom_cons]
      exact ⟨h.1, ih h.2 (by omega) fun e he => hne e (by simp [he])⟩

theorem Memory.mem_insert {m : Memory} {a : Nat} {v : Word} {e : Nat × Word} :
    e ∈ Memory.insert m a v ↔ e = (a, v) ∨ e ∈ m := by
  induction m with
  | nil => simp [Memory.insert]
  | cons f rest ih =>
    obtain ⟨k, u⟩ := f
    simp only [Memory.insert]
    split
    · simp
    · simp only [List.mem_cons, ih]; tauto

/-- The canonical form, spelt out. -/
theorem Memory.wf_iff (m : Memory) :
    m.wf = true ↔ Memory.risesFrom 0 m = true ∧ ∀ e ∈ m, e.1 < 65536 ∧ e.2 ≠ Memory.unlisted := by
  simp [Memory.wf, List.all_eq_true]

/-- A write keeps the canonical form. -/
theorem Memory.wf_write {m : Memory} (h : m.wf = true) (a v : Word) : (m.write a v).wf = true := by
  rw [Memory.wf_iff] at *
  have ne : ∀ e ∈ (m.filter fun e => decide (e.1 ≠ a.toNat)), e.1 ≠ a.toNat := by
    intro e he; simpa using (List.mem_filter.mp he).2
  unfold Memory.write
  simp only
  split
  · exact ⟨Memory.risesFrom_filter _ h.1, fun e he => h.2 e (List.mem_of_mem_filter he)⟩
  · rename_i hv
    refine ⟨Memory.risesFrom_insert _ _ (Memory.risesFrom_filter _ h.1) (Nat.zero_le _) ne, fun e he => ?_⟩
    rcases Memory.mem_insert.mp he with rfl | he
    · exact ⟨a.isLt, hv⟩
    · exact h.2 e (List.mem_of_mem_filter he)

/-- The memory of a reset is in canonical form. -/
theorem Memory.wf_nil : Memory.wf [] = true := rfl

/-- Loading words keeps the canonical form. -/
theorem Memory.wf_loadWords {m : Memory} (h : m.wf = true) (a : Word) (ws : List Word) :
    (loadWords m a ws).wf = true := by
  induction ws generalizing m a with
  | nil => exact h
  | cons w ws ih => exact ih (Memory.wf_write h a w) (a + 1)

/-! ### A memory of any content -/

theorem Memory.risesFrom_filterMap_range' (g : Nat → Word) (n : Nat) : ∀ (l k : Nat), l ≤ k →
    Memory.risesFrom l ((List.range' k n).filterMap fun a =>
      if g a = Memory.unlisted then none else some (a, g a)) = true := by
  induction n with
  | zero => intros; rfl
  | succ n ih =>
    intro l k h
    rw [List.range'_succ]
    by_cases hg : g k = Memory.unlisted
    · rw [List.filterMap_cons_none (by simp [hg])]
      exact ih l (k + 1) (by omega)
    · rw [List.filterMap_cons_some (b := (_, g _)) (by rw [if_neg hg]), Memory.risesFrom_cons]
      exact ⟨h, ih (k + 1) (k + 1) (Nat.le_refl _)⟩

theorem Memory.wf_tabulate (f : Word → Word) (n : Nat) (hn : n ≤ 65536) : (Memory.tabulate f n).wf = true := by
  rw [Memory.wf_iff, Memory.tabulate]
  refine ⟨?_, fun e he => ?_⟩
  · rw [List.range_eq_range']
    exact Memory.risesFrom_filterMap_range' (fun a => f (BitVec.ofNat 16 a)) n 0 0 (Nat.le_refl _)
  · obtain ⟨a, ha, h⟩ := List.mem_filterMap.mp he
    split at h
    · cases h
    · rename_i hne
      cases h
      exact ⟨lt_of_lt_of_le (List.mem_range.mp ha) hn, hne⟩

/-- Any content has a canonical memory. -/
theorem Memory.wf_ofFun (f : Word → Word) : (Memory.ofFun f).wf = true :=
  Memory.wf_tabulate f 65536 (Nat.le_refl _)

theorem Memory.lookup_filterMap_range' (g : Nat → Word) (n : Nat) : ∀ (k a : Nat), k ≤ a → a < k + n →
    Memory.lookup ((List.range' k n).filterMap fun a =>
      if g a = Memory.unlisted then none else some (a, g a)) a = g a := by
  have absent : ∀ (n k a : Nat), a < k → Memory.lookup ((List.range' k n).filterMap fun a =>
      if g a = Memory.unlisted then none else some (a, g a)) a = Memory.unlisted := by
    intro n
    induction n with
    | zero => intros; rfl
    | succ n ih =>
      intro k a h
      rw [List.range'_succ]
      by_cases hg : g k = Memory.unlisted
      · rw [List.filterMap_cons_none (by simp [hg])]
        exact ih (k + 1) a (by omega)
      · rw [List.filterMap_cons_some (b := (_, g _)) (by rw [if_neg hg]), Memory.lookup, if_neg (by omega)]
        exact ih (k + 1) a (by omega)
  induction n with
  | zero => intros; omega
  | succ n ih =>
    intro k a h1 h2
    rw [List.range'_succ]
    by_cases hg : g k = Memory.unlisted
    · rw [List.filterMap_cons_none (by simp [hg])]
      by_cases hk : k = a
      · subst hk; rw [absent n (k + 1) k (by omega), hg]
      · exact ih (k + 1) a (by omega) (by omega)
    · rw [List.filterMap_cons_some (b := (_, g _)) (by rw [if_neg hg]), Memory.lookup]
      by_cases hk : k = a
      · subst hk; simp
      · rw [if_neg hk]; exact ih (k + 1) a (by omega) (by omega)

theorem Memory.lookup_tabulate (f : Word → Word) (n a : Nat) (h : a < n) :
    Memory.lookup (Memory.tabulate f n) a = f (BitVec.ofNat 16 a) := by
  rw [Memory.tabulate, List.range_eq_range']
  exact Memory.lookup_filterMap_range' (fun a => f (BitVec.ofNat 16 a)) n 0 a (Nat.zero_le _) (by omega)

/-- A memory of content `f` reads as `f`. -/
@[simp] theorem Memory.read_ofFun (f : Word → Word) (a : Word) : (Memory.ofFun f).read a = f a := by
  rw [Memory.ofFun, Memory.read, Memory.lookup_tabulate f 65536 a.toNat a.isLt, BitVec.ofNat_toNat, BitVec.setWidth_eq]

/-! ### Uniqueness -/

theorem Memory.lookup_of_risesFrom_lt {m : Memory} {l a : Nat} (h : Memory.risesFrom l m = true) (ha : a < l) :
    Memory.lookup m a = Memory.unlisted := by
  induction m generalizing l with
  | nil => rfl
  | cons e rest ih =>
    obtain ⟨k, v⟩ := e
    rw [Memory.risesFrom_cons] at h
    rw [Memory.lookup, if_neg (by omega)]
    exact ih h.2 (by omega)

end Sys2Proof.Machine
end

