-- ==== Sys2Proof/Laws/Operands.lean ====
section
/-! SUPPORT. Sign extension and addresses as integers. -/

namespace Sys2Proof.Machine

/-- A sign-extended field keeps its value (00_scope.md R13). -/
theorem sext_toInt {n : Nat} (h : n ≤ 16) (v : BitVec n) : (sext v).toInt = v.toInt := by
  rw [sext, BitVec.toInt_signExtend, Nat.min_eq_right h, ← BitVec.toInt_bmod_cancel v]
  simp

/-- Sign extension as the narrowing of the exact value. -/
theorem sext_eq_ofInt {n : Nat} (h : n ≤ 16) (v : BitVec n) : sext v = BitVec.ofInt 16 v.toInt := by
  rw [← sext_toInt h v, BitVec.ofInt_toInt]

/-- An address plus an offset is the exact sum narrowed to 16 bits (00_scope.md R12). -/
theorem add_sext_eq_ofInt {n : Nat} (h : n ≤ 16) (a : Word) (v : BitVec n) :
    a + sext v = BitVec.ofInt 16 (a.toNat + v.toInt) := by
  rw [sext_eq_ofInt h, BitVec.ofInt_add, BitVec.ofInt_natCast, BitVec.ofNat_toNat, BitVec.setWidth_eq]

/-- A sum of two words is their exact signed sum narrowed to 16 bits (00_scope.md R12). -/
theorem add_eq_ofInt (a b : Word) : a + b = BitVec.ofInt 16 (a.toInt + b.toInt) := by
  rw [BitVec.ofInt_add, BitVec.ofInt_toInt, BitVec.ofInt_toInt]

end Sys2Proof.Machine
end

