-- ==== Sys2Proof/Laws/PerInstr.lean ====
section
/-! SUPPORT. Statements made of every instruction as syntax, one lemma for each constructor. -/

namespace Sys2Proof.Laws.CoreRoundTrip

/-- The canonical word of a well-formed instruction decodes to the variant of R103 the instruction stands for. -/
def Statement (i : Instr) : Prop := i.wellFormed = true → decode (encode i) = i.core

theorem endOfProgram : Statement .endOfProgram := fun _ => rfl

theorem add (dr sr1 sr2 : Reg) : Statement (.add dr sr1 sr2) := by
  intro _
  show decode _ = .add dr sr1 sr2
  have e := encode_add dr sr1 sr2
  have h1 := dr.toField_lt; have h2 := sr1.toField_lt; have h3 := sr2.toField_lt
  rw [decode_add (by omega) (by omega),
    regHigh_of (r := dr) (by omega), regMid_of (r := sr1) (by omega),
    regLow_of (r := sr2) (by omega)]

theorem addI (dr sr1 : Reg) (imm5 : BitVec 5) : Statement (.addI dr sr1 imm5) := by
  intro _
  show decode _ = .addI dr sr1 imm5
  have e := encode_addI dr sr1 imm5
  have h1 := dr.toField_lt; have h2 := sr1.toField_lt; have h3 := imm5.isLt
  rw [decode_addI (by omega) (by omega),
    regHigh_of (r := dr) (by omega), regMid_of (r := sr1) (by omega),
    field_of (b := imm5) (by omega)]

theorem and (dr sr1 sr2 : Reg) : Statement (.and dr sr1 sr2) := by
  intro _
  show decode _ = .and dr sr1 sr2
  have e := encode_and dr sr1 sr2
  have h1 := dr.toField_lt; have h2 := sr1.toField_lt; have h3 := sr2.toField_lt
  rw [decode_and (by omega) (by omega),
    regHigh_of (r := dr) (by omega), regMid_of (r := sr1) (by omega),
    regLow_of (r := sr2) (by omega)]

theorem andI (dr sr1 : Reg) (imm5 : BitVec 5) : Statement (.andI dr sr1 imm5) := by
  intro _
  show decode _ = .andI dr sr1 imm5
  have e := encode_andI dr sr1 imm5
  have h1 := dr.toField_lt; have h2 := sr1.toField_lt; have h3 := imm5.isLt
  rw [decode_andI (by omega) (by omega),
    regHigh_of (r := dr) (by omega), regMid_of (r := sr1) (by omega),
    field_of (b := imm5) (by omega)]

theorem br (nzp : BitVec 3) (off9 : BitVec 9) : Statement (.br nzp off9) := by
  intro h0
  show decode _ = .br nzp off9
  have e := encode_br nzp off9
  have h1 := nzp.isLt; have h2 := off9.isLt
  have hpos : 0 < (encode (.br nzp off9)).toNat := by
    rcases Nat.eq_zero_or_pos (encode (.br nzp off9)).toNat with hz | hz
    · have hn : nzp = 0 := BitVec.eq_of_toNat_eq (by simp; omega)
      have ho : off9 = 0 := BitVec.eq_of_toNat_eq (by simp; omega)
      subst hn; subst ho; cases h0
    · exact hz
  rw [decode_br (ne_zero_of_toNat hpos) (by omega),
    field_of (b := nzp) (by omega), field_of (b := off9) (by omega)]

theorem jmp (base : Reg) : Statement (.jmp base) := by intro _; cases base <;> rfl

theorem ret : Statement .ret := fun _ => rfl

theorem jsr (off11 : BitVec 11) : Statement (.jsr off11) := by
  intro _
  show decode _ = .jsr off11
  have e := encode_jsr off11
  have h1 := off11.isLt
  rw [decode_jsr (by omega) (by omega),
    field_of (b := off11) (by omega)]

theorem jsrr (base : Reg) : Statement (.jsrr base) := by intro _; cases base <;> rfl

theorem ld (dr : Reg) (off9 : BitVec 9) : Statement (.ld dr off9) := by
  intro _
  show decode _ = .ld dr off9
  have e := encode_ld dr off9
  have h1 := dr.toField_lt; have h2 := off9.isLt
  rw [decode_ld (by omega),
    regHigh_of (r := dr) (by omega), field_of (b := off9) (by omega)]

theorem ldi (dr : Reg) (off9 : BitVec 9) : Statement (.ldi dr off9) := by
  intro _
  show decode _ = .ldi dr off9
  have e := encode_ldi dr off9
  have h1 := dr.toField_lt; have h2 := off9.isLt
  rw [decode_ldi (by omega),
    regHigh_of (r := dr) (by omega), field_of (b := off9) (by omega)]

theorem ldr (dr base : Reg) (off6 : BitVec 6) : Statement (.ldr dr base off6) := by
  intro _
  show decode _ = .ldr dr base off6
  have e := encode_ldr dr base off6
  have h1 := dr.toField_lt; have h2 := base.toField_lt; have h3 := off6.isLt
  rw [decode_ldr (by omega),
    regHigh_of (r := dr) (by omega), regMid_of (r := base) (by omega), field_of (b := off6) (by omega)]

theorem lea (dr : Reg) (off9 : BitVec 9) : Statement (.lea dr off9) := by
  intro _
  show decode _ = .lea dr off9
  have e := encode_lea dr off9
  have h1 := dr.toField_lt; have h2 := off9.isLt
  rw [decode_lea (by omega),
    regHigh_of (r := dr) (by omega), field_of (b := off9) (by omega)]

theorem not (dr sr : Reg) : Statement (.not dr sr) := by intro _; cases dr <;> cases sr <;> rfl

theorem st (sr : Reg) (off9 : BitVec 9) : Statement (.st sr off9) := by
  intro _
  show decode _ = .st sr off9
  have e := encode_st sr off9
  have h1 := sr.toField_lt; have h2 := off9.isLt
  rw [decode_st (by omega),
    regHigh_of (r := sr) (by omega), field_of (b := off9) (by omega)]

theorem sti (sr : Reg) (off9 : BitVec 9) : Statement (.sti sr off9) := by
  intro _
  show decode _ = .sti sr off9
  have e := encode_sti sr off9
  have h1 := sr.toField_lt; have h2 := off9.isLt
  rw [decode_sti (by omega),
    regHigh_of (r := sr) (by omega), field_of (b := off9) (by omega)]

theorem str (sr base : Reg) (off6 : BitVec 6) : Statement (.str sr base off6) := by
  intro _
  show decode _ = .str sr base off6
  have e := encode_str sr base off6
  have h1 := sr.toField_lt; have h2 := base.toField_lt; have h3 := off6.isLt
  rw [decode_str (by omega),
    regHigh_of (r := sr) (by omega), regMid_of (r := base) (by omega), field_of (b := off6) (by omega)]

theorem rti : Statement .rti := fun _ => rfl

theorem trap (vect8 : BitVec 8) : Statement (.trap vect8) := by
  intro _
  show decode _ = .trap vect8
  have e := encode_trap vect8
  have h1 := vect8.isLt
  rw [decode_trap (by omega),
    field_of (b := vect8) (by omega)]

theorem getc : Statement .getc := fun _ => rfl

theorem out : Statement .out := fun _ => rfl

theorem puts : Statement .puts := fun _ => rfl

theorem inp : Statement .inp := fun _ => rfl

theorem putsp : Statement .putsp := fun _ => rfl

theorem halt : Statement .halt := fun _ => rfl

theorem unrecognized : Statement .unrecognized := fun _ => rfl

end Sys2Proof.Laws.CoreRoundTrip
end

