-- ==== Sys2Proof/Tests/Slice0.lean ====
section
/-! SUPPORT. Tests. Words are written out from the formats of 30_encoding.md R75 to R84 and the opcodes of R96; expected
values are those of 95_test_vectors.md, whose numbers (V1, E6, ...) stand in the comments. After them, for every statement
with hypotheses, a concrete input that meets them. No test says what an opaque parameter is. -/

open Sys2Proof Sys2Proof.Machine

namespace Sys2Proof.Tests

/-- The reset state with some registers, memory words and the condition code set. -/
def start (cc : BitVec 3) (regs : List (Reg × Word)) (mem : List (Word × Word)) : State :=
  let s := regs.foldl (fun s e => s.writeReg e.1 e.2) { State.reset with cc := cc }
  mem.foldl (fun s e => s.memWrite e.1 e.2) s

/-- The state after one step from `s` with `w` where the step fetches. -/
def after (s : State) (w : Nat) : Option State :=
  match step (s.withFetchWord 16 w) with
  | .next t => some t
  | .fault _ => none
  | .refused _ => none

/-- Register `r`, cc and pc after the step. -/
def result (s : State) (w : Nat) (r : Reg) : Option (Word × BitVec 3 × Word) :=
  (after s w).map fun t => (t.readReg r, t.cc, t.pc)

/-- The word at `a`, cc and pc after the step. -/
def stored (s : State) (w : Nat) (a : Word) : Option (Word × BitVec 3 × Word) :=
  (after s w).map fun t => (t.memRead a, t.cc, t.pc)

/-! ### Well-formedness: a form the check refuses, for each check -/

theorem test_wf_refuses_br_of_zero_word : (Instr.br 0 0).wellFormed = false := by decide
theorem test_wf_accepts_neighbours : ((Instr.br 0 1).wellFormed && (Instr.br 1 0).wellFormed &&
    (Instr.jmp .r7).wellFormed && (Instr.trap 0x25).wellFormed && Instr.halt.wellFormed) = true := by decide

/-! ### Decoding: a word of every constructor, written out from its format -/

theorem test_decode_arith : decode 0b0001_001_010_0_00_011 = .add .r1 .r2 .r3 ∧
    decode 0b0001_000_001_1_10000 = .addI .r0 .r1 0b10000 ∧ decode 0b0101_111_110_0_00_101 = .and .r7 .r6 .r5 ∧
    decode 0b0101_010_100_1_01111 = .andI .r2 .r4 0b01111 ∧ decode 0b1001_011_100_111111 = .not .r3 .r4 := by decide
theorem test_decode_control : decode 0b0000_100_000000101 = .br 0b100 0b000000101 ∧
    decode 0b0000_000_000000001 = .br 0b000 0b000000001 ∧ decode 0b1100_000_010_000000 = .jmp .r2 ∧
    decode 0b1100_000_111_000000 = .jmp .r7 ∧ decode 0b0100_1_01111111111 = .jsr 0b01111111111 ∧
    decode 0b0100_0_00_101_000000 = .jsrr .r5 := by decide
theorem test_decode_load : decode 0b0010_001_100000010 = .ld .r1 0b100000010 ∧
    decode 0b1010_110_000000010 = .ldi .r6 0b000000010 ∧ decode 0b0110_011_001_100000 = .ldr .r3 .r1 0b100000 ∧
    decode 0b1110_001_000000011 = .lea .r1 0b000000011 := by decide
theorem test_decode_store : decode 0b0011_010_000000100 = .st .r2 0b000000100 ∧
    decode 0b1011_010_111111100 = .sti .r2 0b111111100 ∧ decode 0b0111_010_001_000001 = .str .r2 .r1 0b000001 := by
  decide
theorem test_decode_system : decode 0b1000_000000000000 = .rti ∧ decode 0b1111_0000_00011111 = .trap 0x1F ∧
    decode 0b1111_0000_00100000 = .trap 0x20 ∧ decode 0b1111_0000_00100101 = .trap 0x25 ∧
    decode 0b1101_000100100011 = .unrecognized ∧ decode 0b0000_000_000000000 = .endOfProgram := by decide
/-- R95: the don't-care bits set (V8, V16, V35, V65, V70). -/
theorem test_decode_ignores_dont_care : decode 0b0001_001_010_0_11_011 = .add .r1 .r2 .r3 ∧
    decode 0b1001_001_001_000000 = .not .r1 .r1 ∧ decode 0b1100_111_010_111111 = .jmp .r2 ∧
    decode 0b0100_0_11_101_111111 = .jsrr .r5 ∧ decode 0b1111_1111_00100101 = .trap 0x25 ∧
    decode 0b1000_111111111111 = .rti := by decide
theorem test_decode_table_word : decodeTableWord 16 0x1283 = some (.add .r1 .r2 .r3) ∧
    decodeTableWord 32 0x1283 = none := by decide
/-- The seven rows that are other names of words (R155, R176). -/
theorem test_decode_named_rows : decodeTableWord 16 0b1100_000_111_000000 = some .ret ∧
    ([0b1111_0000_00100000, 0b1111_0000_00100001, 0b1111_0000_00100010, 0b1111_0000_00100011, 0b1111_0000_00100100,
      0b1111_0000_00100101].map fun w => decodeTableWord 16 w) =
    [some .getc, some .out, some .puts, some .inp, some .putsp, some .halt] := by decide
/-- The words of V85, V86, V91 and V92. -/
theorem test_encode : encode (.addI .r1 .r2 0b11111) = 0x12BF ∧ encode (.not .r3 .r4) = 0x973F ∧
    encode (.jsrr .r5) = 0x4140 ∧ encode .ret = 0xC1C0 ∧ encode .rti = 0x8000 ∧ encode .puts = 0xF022 := by decide

/-! ### One step -/

/-- V1, V2. -/
theorem test_add : result (start 0 [(.r2, 5), (.r3, 7)] []) 0x1283 .r1 = some (0x000C, 0b001, 0x3001) ∧
    result (start 0 [(.r1, 0x7FFF), (.r2, 1)] []) 0x1042 .r0 = some (0x8000, 0b100, 0x3001) := by decide
/-- V4, V6. -/
theorem test_addI : result (start 0 [(.r1, 0x10)] []) 0x1070 .r0 = some (0x0000, 0b010, 0x3001) ∧
    result (start 0 [(.r1, 0x8000)] []) 0x107F .r0 = some (0x7FFF, 0b001, 0x3001) := by decide
/-- V7. -/
theorem test_add_all_one_register : result (start 0 [(.r1, 0x4000)] []) 0x1249 .r1 = some (0x8000, 0b100, 0x3001) := by
  decide
/-- V10, V12. -/
theorem test_and : result (start 0 [(.r2, 0x00FF), (.r3, 0x0F0F)] []) 0x5283 .r1 = some (0x000F, 0b001, 0x3001) ∧
    result (start 0 [(.r2, 0xF0F0), (.r3, 0x8001)] []) 0x5283 .r1 = some (0x8000, 0b100, 0x3001) := by decide
/-- V9, V11. -/
theorem test_andI : result (start 0 [(.r1, 0x1234)] []) 0x5260 .r1 = some (0x0000, 0b010, 0x3001) ∧
    result (start 0 [(.r1, 0xABCD)] []) 0x5270 .r1 = some (0xABC0, 0b100, 0x3001) := by decide
/-- V13, V15. -/
theorem test_not : result (start 0 [] []) 0x927F .r1 = some (0xFFFF, 0b100, 0x3001) ∧
    result (start 0 [(.r1, 0x8000)] []) 0x927F .r1 = some (0x7FFF, 0b001, 0x3001) := by decide
/-- V17, V18, V28, V33. -/
theorem test_br : (after (start 0b100 [] []) 0x0805).map State.pc = some 0x3006 ∧
    (after (start 0b001 [] []) 0x0805).map State.pc = some 0x3001 ∧
    (after (start 0b001 [] []) 0x0F00).map State.pc = some 0x2F01 ∧
    (after (start 0b100 [] []) 0x0005).map State.pc = some 0x3001 := by decide
/-- V27, V31. -/
theorem test_br_corners : (after (start 0b000 [] []) 0x0E05).map State.pc = some 0x3001 ∧
    (after { start 0b001 [] [] with pc := 0xFFFF } 0x0E01).map State.pc = some 0x0001 := by decide
/-- V34, V36. -/
theorem test_jmp_ret : (after (start 0 [(.r2, 0x4000)] []) 0xC080).map State.pc = some 0x4000 ∧
    (after { start 0 [(.r7, 0x3002)] [] with pc := 0x3008 } 0xC1C0).map State.pc = some 0x3002 := by decide
/-- V39, V41. -/
theorem test_jsr : result (start 0b010 [] []) 0x4C00 .r7 = some (0x3001, 0b010, 0x2C01) ∧
    result { start 0 [] [] with pc := 0xFFFF } 0x4801 .r7 = some (0x0000, 0b000, 0x0001) := by decide
/-- V42. -/
theorem test_jsrr : result (start 0b001 [(.r3, 0x5000)] []) 0x40C0 .r7 = some (0x3001, 0b001, 0x5000) := by decide
/-- V46, V48. -/
theorem test_ld : result (start 0 [] [(0x3003, 0x8000)]) 0x2202 .r1 = some (0x8000, 0b100, 0x3001) ∧
    result (start 0 [] []) 0x23FF .r1 = some (0x23FF, 0b001, 0x3001) := by decide
/-- V49, V50. -/
theorem test_ldi : result (start 0 [] [(0x3003, 0x4000), (0x4000, 0xFFFE)]) 0xA202 .r1 = some (0xFFFE, 0b100, 0x3001) ∧
    result (start 0 [] [(0x3003, 0x9000), (0x9000, 1)]) 0xA202 .r1 = some (0x0001, 0b001, 0x3001) := by decide
/-- V51, V54. -/
theorem test_ldr : result (start 0 [(.r1, 0x4020)] [(0x4000, 0x42)]) 0x6660 .r3 = some (0x0042, 0b001, 0x3001) ∧
    result (start 0 [(.r1, 0xFFFF)] [(0, 0x99)]) 0x6641 .r3 = some (0x0099, 0b001, 0x3001) := by decide
/-- V55, V56. -/
theorem test_lea : result (start 0 [] []) 0xE203 .r1 = some (0x3004, 0b001, 0x3001) ∧
    result { start 0 [] [] with pc := 0x8000 } 0xE3FF .r1 = some (0x8000, 0b100, 0x8001) := by decide
/-- V58. -/
theorem test_st : stored (start 0b001 [(.r2, 0xD)] []) 0x3404 0x3005 = some (0x000D, 0b001, 0x3001) := by decide
/-- V60, V61. -/
theorem test_sti : stored (start 0b010 [(.r2, 0xD)] [(0x3005, 0x4000)]) 0xB404 0x4000 = some (0xD, 0b010, 0x3001) ∧
    stored (start 0b010 [(.r2, 0xD)] [(0x3005, 0x3005)]) 0xB404 0x3005 = some (0xD, 0b010, 0x3001) := by decide
/-- V62, V63. -/
theorem test_str : stored (start 0b100 [(.r1, 0x4000), (.r2, 0x22)] []) 0x7441 0x4001 = some (0x22, 0b100, 0x3001) ∧
    stored (start 0b100 [(.r1, 0x4000)] []) 0x727F 0x3FFF = some (0x4000, 0b100, 0x3001) := by decide
/-- V64, V65. -/
theorem test_halt : (after (start 0b001 [] []) 0xF025).map (fun t => (t.pc, t.run)) = some (0, .halted .trapHalt) ∧
    (after (start 0b001 [] []) 0xFF25).map (fun t => (t.pc, t.run)) = some (0, .halted .trapHalt) := by decide
/-- V66 to V71: nothing but the pc. -/
theorem test_no_effect : ([0xF021, 0xF022, 0xF024, 0xF000, 0xF0FF, 0x8000, 0x8FFF, 0xD123].map fun w =>
    after (start 0b010 [] []) w) =
    [0xF021, 0xF022, 0xF024, 0xF000, 0xF0FF, 0x8000, 0x8FFF, 0xD123].map fun w =>
      some { (start 0b010 [] []).withFetchWord 16 w with pc := 0x3001 } := by decide
/-- V75, V76: R0 is free; cc, pc and R1 are as the rules say. -/
theorem test_input : ([0xF020, 0xF023].map fun w =>
    (after (start 0b001 [(.r1, 9)] []) w).map fun t => (t.cc, t.pc, t.readReg .r1, t.run)) =
    List.replicate 2 (some (0b001, 0x3001, 9, .running)) := by decide
/-- V72, V73: everything but the pc, which a parameter gives. -/
theorem test_zero_word : (after (start 0b001 [(.r1, 9)] []) 0).map (fun t => (t.cc, t.readReg .r1, t.run)) =
    some (0b001, 9, .halted .zeroWord) := by decide
/-- V74. -/
theorem test_no_step_after_halt : step { start 0 [] [] with run := .halted .trapHalt } = .fault (.halted .trapHalt) := rfl
/-- V77. -/
theorem test_reset : State.reset.regs = Regs.zero ∧ State.reset.pc = 0x3000 ∧ State.reset.cc = 0b000 ∧
    State.reset.run = .running := by decide
/-- A write of the word of an unlisted address removes the entry, and keys rise. -/
theorem test_memory_canonical : (Memory.write [(3, 1), (5, 2)] 3 0) = [(5, 2)] ∧
    (Memory.write [(3, 1), (5, 2)] 4 7) = [(3, 1), (4, 7), (5, 2)] ∧ Memory.wf [(3, 1), (4, 0)] = false ∧
    Memory.wf [(3, 1), (3, 2)] = false := by decide

/-! ### Initialization, the caller and the assembler -/

/-- Text as characters. -/
abbrev chars (s : String) : List Char := s.toList

/-- V80, V81. -/
theorem test_parse_bits : parseBits (chars "1000000000000000") = some 0x8000 ∧ parseBits (chars "0101") = none := by decide
/-- V78, V79. -/
theorem test_load_words : (loadWords [] 0xFFFF [0x1283, 0xF025]) = [(0, 0xF025), (0xFFFF, 0x1283)] := by decide
/-- V82, E5. -/
theorem test_register_image :
    (parseValues (tokens (chars "1 2 3 4 5 6 7 40000"))).map (fun v => (Regs.ofValues v).r7) = some 0x9C40 ∧
    (parseValues (tokens (chars "5 6 7"))).map Regs.ofValues = some Regs.zero := by decide
/-- V84. -/
theorem test_register_image_refused : parseValues (tokens (chars "1 2 x 4 5 6 7 8")) = none := by decide
/-- V66 and V67: which vectors call the collaborator. -/
theorem test_service_call : ((serviceCall ((start 0 [] []).withFetchWord 16 0xF021)).map fun c => c.1) = some 0x21 ∧
    ((serviceCall ((start 0 [] []).withFetchWord 16 0xF000)).map fun c => c.1) = none := by decide

/-- The assembler parameters the tests use. -/
def params : AsmParams :=
  { unknownLine := chars "?", stringzCase := .asWritten, badRegister := .refuse, dupLabel := .first }

/-- The output lines of source text after `.ORIG x3000`. -/
def assembled (lines : List String) : Option (List (List Char)) :=
  match assemble params .hex (.present (chars ".ORIG x3000" :: lines.map chars)) true with
  | .ok out => some out
  | .error _ => none

/-- V85, V88, V89. -/
theorem test_assemble_line : assembled ["add r1, r2, #-1", "TRAP x125", "ADD R0,R0,#16"] =
    some [chars "12BF", chars "F025", chars "1030"] := by decide
/-- E2. -/
theorem test_assemble_loop : assembled ["LOOP ADD R0,R0,#-1", "BRp LOOP", ".END"] =
    some [chars "103F", chars "03FE"] := by decide
/-- V93, V94. -/
theorem test_assemble_data : assembled [".BLKW 2", ".STRINGZ \"AB\""] =
    some [chars "0000", chars "0000", chars "0041", chars "0042", chars "0000"] := by decide
/-- V95, E3. -/
theorem test_assemble_refuses : assembled ["ADD R1,R2"] = none ∧ assembled [".FILL #70000"] = none := by decide

/-- R115: a register operand is rendered in 3 bits in every field. -/
theorem test_assemble_register_in_wide_field : assembled ["BR R3", "LDR R1,R2,R3"] =
    some [chars "0E03", chars "6283"] := by decide

/-- R127: the words of a lower second origin come first, and a program that runs past 0xFFFF keeps its order. -/
theorem test_assemble_address_order : assembled ["RTI", ".ORIG x2FFF", "RET", "NOT R3,R4"] =
    some [chars "C1C0", chars "8000", chars "973F"] ∧
    assembled [".ORIG xFFFF", "RTI", "RET"] = some [chars "8000", chars "C1C0"] := by decide

/-! ### Witnesses: inputs that meet the hypotheses of the statements -/

/-- A running state whose next word is ADD R1,R2,R3, with cc Z. -/
def adding : State := (start 0b010 [(.r2, 5), (.r3, 7)] []).withFetchWord 16 0x1283

/-- The same at the last address, where the pc wraps. -/
def addingAtTop : State := { start 0b010 [] [(0xFFFF, 0x1283)] with pc := 0xFFFF }

/-- A state with cc P whose next word is ST R2,+0, which stores over the following word (V59). -/
def storing : State := (start 0b001 [(.r2, 0xD)] []).withFetchWord 16 0x3400

theorem witness_StepRunsDecodedInstruction :
    (adding.run = .running ∧ decode (adding.mem.read adding.pc) = .add .r1 .r2 .r3) ∧
    (addingAtTop.run = .running ∧ decode (addingAtTop.mem.read addingAtTop.pc) = .add .r1 .r2 .r3) := by decide
theorem witness_HaltedBlockHasNoStep : ({ adding with run := .halted .zeroWord } : State).run = .halted .zeroWord ∧
    ({ adding with run := .halted .trapHalt } : State).run = .halted .trapHalt := ⟨rfl, rfl⟩
theorem witness_EveryRunIsSafe : adding.run = .running := rfl
theorem witness_OnlyTwoEventsHalt :
    (∃ t, step (start 0 [] []) = .next t ∧ (start 0 [] []).mem.read 0x3000 = 0) ∧
    (∃ t, step ((start 0 [] []).withFetchWord 16 0xFF25) = .next t ∧ t.run = .halted .trapHalt) ∧
    (∃ t, step adding = .next t ∧ t.run = .running) := ⟨⟨_, rfl, rfl⟩, ⟨_, rfl, rfl⟩, ⟨_, rfl, rfl⟩⟩
theorem witness_PcAfterEveryStep : ∃ t, step addingAtTop = .next t ∧ t.pc = 0x0000 := ⟨_, rfl, by decide⟩
/-- Each clause at the least and the greatest word it covers. -/
theorem witness_DecodeReadsEachField : decode 0x0000 = .endOfProgram ∧
    ([0x0001, 0x0FFF, 0x1000, 0x1FDF, 0x1020, 0x1FFF, 0x2000, 0x2FFF, 0x3000, 0x3FFF].map fun w => decode w) =
    [.br 0 1, .br 7 0x1FF, .add .r0 .r0 .r0, .add .r7 .r7 .r7, .addI .r0 .r0 0, .addI .r7 .r7 0x1F, .ld .r0 0,
      .ld .r7 0x1FF, .st .r0 0, .st .r7 0x1FF] ∧
    ([0x4800, 0x4FFF, 0x4000, 0x47FF, 0x5000, 0x5FDF, 0x5020, 0x5FFF, 0x6000, 0x6FFF, 0x7000, 0x7FFF].map fun w =>
      decode w) =
    [.jsr 0, .jsr 0x7FF, .jsrr .r0, .jsrr .r7, .and .r0 .r0 .r0, .and .r7 .r7 .r7, .andI .r0 .r0 0,
      .andI .r7 .r7 0x1F, .ldr .r0 .r0 0, .ldr .r7 .r7 0x3F, .str .r0 .r0 0, .str .r7 .r7 0x3F] ∧
    ([0x8000, 0x8FFF, 0x9000, 0x9FFF, 0xA000, 0xAFFF, 0xB000, 0xBFFF, 0xC000, 0xCFFF, 0xD000, 0xDFFF, 0xE000, 0xEFFF,
      0xF000, 0xFFFF].map fun w => decode w) =
    [.rti, .rti, .not .r0 .r0, .not .r7 .r7, .ldi .r0 0, .ldi .r7 0x1FF, .sti .r0 0, .sti .r7 0x1FF, .jmp .r0,
      .jmp .r7, .unrecognized, .unrecognized, .lea .r0 0, .lea .r7 0x1FF, .trap 0, .trap 0xFF] := by decide
theorem witness_DecodeOfEncode : (Instr.str .r7 .r0 0x3F).wellFormed = true ∧ Instr.ret.wellFormed = true ∧
    (Instr.str .r7 .r0 0x3F).isCore = true ∧ Instr.ret.isCore = false := by decide
theorem witness_NamedWordsRunAsJmpAndTrap : (Instr.trap 0x25).isCore = true ∧ (Instr.trap 0x25).named = .halt := by decide
theorem witness_StepKeepsInv : adding.Inv ∧ ∃ t, step adding = .next t := ⟨by unfold State.Inv; decide, _, rfl⟩
theorem witness_CcIsZeroOnlyBeforeTheFirstResult : (∃ t, step adding = .next t) ∧ adding.cc ≠ 0b000 ∧
    setsCC (decode (adding.mem.read adding.pc)) = true ∧ legalCC adding.cc = true := ⟨⟨_, rfl⟩, by decide⟩
theorem witness_RegisterWritersAreListed : (∃ t, exec (.add .r1 .r2 .r3) adding = .next t) ∧
    dest (.add .r1 .r2 .r3) ≠ some .r2 := ⟨⟨_, rfl⟩, by decide⟩
theorem witness_CcWritersAreListed : (∃ t, exec (.lea .r0 5) adding = .next t) ∧ setsCC (.lea .r0 5) = true ∧
    (∃ t, exec (.jsr 5) adding = .next t) ∧ setsCC (.jsr 5) = false := ⟨⟨_, rfl⟩, rfl, ⟨_, rfl⟩, rfl⟩
theorem witness_MemoryWritersAreListed : (∃ t, exec (.str .r2 .r3 0x3F) adding = .next t) ∧
    storeOf (.str .r2 .r3 0x3F) adding = some (6, .r2) ∧ (∀ sr, storeOf (.rti) adding ≠ some (6, sr)) :=
  ⟨⟨_, rfl⟩, by decide, by simp [storeOf]⟩
theorem witness_OnlyBrReadsCc : (∀ nzp off9, Instr.add .r1 .r2 .r3 ≠ .br nzp off9) ∧
    takesInput (.add .r1 .r2 .r3) = false := ⟨by simp, rfl⟩
theorem witness_StoreIsSeenByFetch : storing.run = .running ∧
    storeOf (decode (storing.mem.read storing.pc)) { storing with pc := storing.pc + 1 } = some (0x3001, .r2) ∧
    ∃ t, step storing = .next t ∧ ∃ u, Sys2Proof.core.run 1 t = .next u ∧
      ∀ q, storeOf (decode (t.mem.read t.pc)) { t with pc := t.pc + 1 } ≠ some (0x3001, q) :=
  ⟨rfl, by decide, _, rfl, _, rfl, fun q h => by
    have : decode 0x000D = .br 0 0x00D := by decide
    change storeOf (decode 0x000D) _ = _ at h
    rw [this] at h
    cases h⟩
theorem witness_CanonicalMemoryIsUnique : Memory.wf [(0x3000, 0x1283)] = true ∧
    ∀ a : Word, Memory.read [(0x3000, 0x1283)] a = Memory.read [(0x3000, 0x1283)] a := ⟨by decide, fun _ => rfl⟩
/-- E7: both ends of every width. -/
theorem witness_SignExtensionKeepsValue :
    ∀ e ∈ [((5 : Nat), (-16 : Int)), (5, 15), (6, -32), (6, 31), (9, -256), (9, 255), (11, -1024), (11, 1023)],
      e.1 ∈ [5, 6, 9, 11] ∧ -(2 ^ (e.1 - 1)) ≤ e.2 ∧ e.2 < 2 ^ (e.1 - 1) := by decide
theorem witness_SetCcShowsTheSign : (0x8000 : Word).toInt < 0 ∧ (0xFFFF : Word).toInt < 0 ∧ (0 : Word).toInt = 0 ∧
    0 < (1 : Word).toInt ∧ 0 < (0x7FFF : Word).toInt := by decide
theorem witness_BrBranchesOnTheMask : (∃ i < 3, (0b110 : BitVec 3).getLsbD i = true ∧ adding.cc.getLsbD i = true) ∧
    (∀ i < 3, (0b101 : BitVec 3).getLsbD i = true → adding.cc.getLsbD i = false) := by decide
/-- The words of the statements of result: a word of each format, by opcode and form bit. -/
theorem witness_word_formats :
    ([0x1FDF, 0x1FFF, 0x5FDF, 0x5FFF, 0x47FF, 0x4FFF].map fun w => (field w 12 4, field w 5 1, field w 11 1)) =
    [(1, 0, 1), (1, 1, 1), (5, 0, 1), (5, 1, 1), (4, 1, 0), (4, 1, 1)] ∧
    ([0x0001, 0x2000, 0x3000, 0x6000, 0x7000, 0x8000, 0x9000, 0xA000, 0xB000, 0xC1C0, 0xC180, 0xD000, 0xE000].map
      fun w => (field w 12 4, regMid w)) =
    [(0, .r0), (2, .r0), (3, .r0), (6, .r0), (7, .r0), (8, .r0), (9, .r0), (10, .r0), (11, .r0), (12, .r7), (12, .r6),
      (13, .r0), (14, .r0)] ∧
    ([0xF01F, 0xF020, 0xF021, 0xF022, 0xF023, 0xF024, 0xFF25, 0xF026].map fun w => (field w 12 4, field w 0 8)) =
    [(15, 0x1F), (15, 0x20), (15, 0x21), (15, 0x22), (15, 0x23), (15, 0x24), (15, 0x25), (15, 0x26)] := by decide
/-- The order of JSRR is one of the two; which one, no proof can see. -/
theorem witness_JsrrCallsThroughARegister : Reg.r6 ≠ Reg.r7 ∧
    (Config.jsrrLinkFirst = true ∨ Config.jsrrLinkFirst = false) := ⟨by decide, by cases Config.jsrrLinkFirst <;> simp⟩
theorem witness_NoOpsChangeNothing : (0x00 : BitVec 8).toNat < 0x20 ∧ (0x1F : BitVec 8).toNat < 0x20 ∧
    0x25 < (0x26 : BitVec 8).toNat ∧ 0x25 < (0xFF : BitVec 8).toNat := by decide
theorem witness_TrapFollowsItsVector : (0x20 : BitVec 8) ≠ 0x25 ∧ (0x21 : BitVec 8) ≠ 0x20 ∧ (0x21 : BitVec 8) ≠ 0x23 ∧
    (0x21 : BitVec 8) ≠ 0x25 := by decide
/-- The pc of a zero-word halt is one of the two; which one, no proof can see (ExecOfTheZeroWordHalts too). -/
theorem witness_ZeroWordHaltsWithoutAHandler :
    ((start 0 [] []).run = .running ∧ (start 0 [] []).mem.read (start 0 [] []).pc = 0x0000) ∧
    (Config.zeroHaltPc = .incremented ∨ Config.zeroHaltPc = .unchanged) :=
  ⟨by decide, by cases Config.zeroHaltPc <;> simp⟩
/-- A reply that writes R0 is admitted for GETC and not for OUT; one that writes R1 is never admitted. -/
theorem witness_ServiceReplyIsBounded : serviceAdmits 0x20 adding (adding.writeReg .r0 0x41) = true ∧
    serviceAdmits 0x21 adding adding = true ∧ serviceAdmits 0x21 adding (adding.writeReg .r0 0x41) = false ∧
    serviceAdmits 0x20 adding (adding.writeReg .r1 0x41) = false := by decide

/-- A request with the two images given. -/
def request (mem : Source (List (List Char))) (regs : Source (List Char)) : InitRequest :=
  { startPc := 0x3000, memInit := fun _ => 0x0007, memImage := mem, loadBase := 0xFFFF, regImage := regs }

theorem witness_InitSetsPcCcAndRun : ∃ s, init (request .absent .absent) = .ok s := ⟨_, rfl⟩
theorem witness_MemoryImageIsLoaded : let ws := [(0x1283 : Word), 0xF025]
    (∃ s, init (request (.present (ws.map renderBits)) .absent) = .ok s) ∧
    ((0xFFFF : Word) + BitVec.ofNat 16 1 ≠ 0xFFFF + BitVec.ofNat 16 0) ∧
    (∀ k, k < ws.length → (5 : Word) ≠ 0xFFFF + BitVec.ofNat 16 k) := ⟨⟨_, rfl⟩, by decide, by decide⟩
theorem witness_RegisterImageIsLoaded :
    (∃ s, init (request .absent (.present (chars "1 2 3 4 5 6 7 -1"))) = .ok s) ∧
    parseValues (tokens (chars "1 2 3 4 5 6 7 -1")) = some [1, 2, 3, 4, 5, 6, 7, -1] ∧
    (∃ s, init (request .absent (.present (chars "1 2 3 4 5 6 7"))) = .ok s) ∧
    parseValues (tokens (chars "1 2 3 4 5 6 7")) = some [1, 2, 3, 4, 5, 6, 7] ∧
    chars "x" ∈ tokens (chars "1 2 x") ∧ parseDecimal (chars "x") = none ∧
    (∀ t ∈ tokens (chars "1 2 -3"), parseDecimal t ≠ none) :=
  ⟨⟨_, rfl⟩, by decide, ⟨_, rfl⟩, by decide, by decide, by decide, by decide⟩
theorem witness_BadImagesLeaveNoState : (request .unreadable .absent).memImage = .unreadable ∧
    (request .absent .unreadable).regImage = .unreadable ∧ ∀ w, chars "0101" ≠ renderBits w :=
  ⟨rfl, rfl, fun w h => absurd (congrArg List.length h) (by simp [renderBits]; decide)⟩
/-- Both ends of the recognized vectors: the collaborator is called and its reply is accepted. -/
theorem witness_ServiceIsCalledForSixVectors :
    (∃ v h u, serviceCall ((start 0 [] []).withFetchWord 16 0xF020) = some (v, h) ∧ trapService v h = .next u) ∧
    (∃ v h u, serviceCall ((start 0 [] []).withFetchWord 16 0xFF25) = some (v, h) ∧ trapService v h = .next u) :=
  ⟨⟨_, _, _, rfl, rfl⟩, _, _, _, rfl, rfl⟩
theorem witness_StepOutputsAreExact : (∃ t, step adding = .next t) ∧ (∃ t, step (start 0 [] []) = .next t) :=
  ⟨⟨_, rfl⟩, ⟨_, rfl⟩⟩
theorem witness_CallerWriteTakesEffect : adding.run = .running ∧ (0x3000 : Word) = adding.pc := by decide

/-- JMP R2 with R2 = 0 and the all-zero word at 0: the sentinel caller stops after the first step, the other caller
after the second (R195). -/
def jumpingToZero : State := (start 0b010 [] []).withFetchWord 16 0xC080

theorem witness_SentinelCallerStopsNoLater : (∃ t, callerRun .onHalted 2 jumpingToZero = some t) ∧
    (∃ u, callerRun .onSentinel 1 jumpingToZero = some u ∧ u.pc = 0x0000) ∧
    callerRun .onHalted 1 jumpingToZero = none := ⟨⟨_, rfl⟩, ⟨_, rfl, by decide⟩, by decide⟩
/-- E6: both ends of the 9-bit range, and a 6-bit and an 11-bit row. -/
theorem witness_LabelOffsetReachesTheLabel : labelOffset 0x3100 0x3000 = 255 ∧ labelOffset 0x2F01 0x3000 = -256 ∧
    labelOffset 0x3020 0x3000 = 31 ∧ labelOffset 0x3006 0x3000 = 5 := by decide
theorem witness_BinaryLinesAreWords : parseBits (chars "0001001010000011") = some 0x1283 := by decide
theorem witness_PassesAgreeOnLength : let b := (parseLine params (chars "S .STRINGZ \"AB\"")).body
    b ≠ .unknown ∧ (bodyLength b).toOption = some 3 ∧ ((emitBody params [] 0x3000 b).toOption.map List.length) = some 3 := by
  decide
theorem witness_AssembledWordsDecodeBack : (chars "ADD", Mnemonic.add) ∈ mnemonicTable ∧
    (assembleInstr params [] 0x3000 .add [chars "R1", chars "R2", chars "#-1"]).toOption = some (.addI .r1 .r2 0x1F) := by
  decide

end Sys2Proof.Tests
end

section
/-! PROOFS. The statements of 00_scope.md: sign extension (R13), no run is stopped by anything but a halt (R16, R181),
and the words the assembler hands over (R5). -/

namespace Sys2Proof

/-! ### The fields of a word, by format (30_encoding.md R75 to R84)

Each lemma reads opcode and operands off the number of a canonical word. -/

/-- Two registers, a zero 3-bit gap and a third register. -/
theorem fields_of_threeRegs {w : Word} {op : Nat} {r q p : Reg}
    (h : w.toNat = op * 4096 + r.toField.toNat * 512 + q.toField.toNat * 64 + p.toField.toNat) :
    w.toNat / 4096 = op ∧ w.toNat / 32 % 2 = 0 ∧ regHigh w = r ∧ regMid w = q ∧ regLow w = p := by
  have := r.toField_lt; have := q.toField_lt; have := p.toField_lt
  exact ⟨by omega, by omega, regHigh_of (by omega), regMid_of (by omega), regLow_of (by omega)⟩

/-- Two registers, the form bit and a 5-bit immediate. -/
theorem fields_of_twoRegsImm5 {w : Word} {op : Nat} {r q : Reg} {imm5 : BitVec 5}
    (h : w.toNat = op * 4096 + r.toField.toNat * 512 + q.toField.toNat * 64 + 32 + imm5.toNat) :
    w.toNat / 4096 = op ∧ w.toNat / 32 % 2 = 1 ∧ regHigh w = r ∧ regMid w = q ∧ field w 0 5 = imm5 := by
  have := r.toField_lt; have := q.toField_lt; have := imm5.isLt
  exact ⟨by omega, by omega, regHigh_of (by omega), regMid_of (by omega), field_of (by omega)⟩

/-- Two registers and six low bits. -/
theorem fields_of_twoRegsLow6 {w : Word} {op low6 : Nat} {r q : Reg} (hl : low6 < 64)
    (h : w.toNat = op * 4096 + r.toField.toNat * 512 + q.toField.toNat * 64 + low6) :
    w.toNat / 4096 = op ∧ regHigh w = r ∧ regMid w = q ∧ (field w 0 6).toNat = low6 := by
  have := r.toField_lt; have := q.toField_lt
  exact ⟨by omega, regHigh_of (by omega), regMid_of (by omega), by rw [field_toNat]; omega⟩

/-- A register and a 9-bit offset. -/
theorem fields_of_regOff9 {w : Word} {op : Nat} {r : Reg} {off9 : BitVec 9}
    (h : w.toNat = op * 4096 + r.toField.toNat * 512 + off9.toNat) :
    w.toNat / 4096 = op ∧ regHigh w = r ∧ field w 0 9 = off9 := by
  have := r.toField_lt; have := off9.isLt
  exact ⟨by omega, regHigh_of (by omega), field_of (by omega)⟩

/-- A base register alone. -/
theorem fields_of_base {w : Word} {op : Nat} {r : Reg} (h : w.toNat = op * 4096 + r.toField.toNat * 64) :
    w.toNat / 4096 = op ∧ w.toNat / 2048 % 2 = 0 ∧ regMid w = r := by
  have := r.toField_lt
  exact ⟨by omega, by omega, regMid_of (by omega)⟩

/-! ### Decode of encode -/

theorem decode_encode_br {nzp : BitVec 3} {off9 : BitVec 9} (h : (Instr.br nzp off9).wellFormed = true) :
    decode (encode (.br nzp off9)) = .br nzp off9 := by
  have he := encode_br nzp off9
  have := nzp.isLt; have := off9.isLt
  have h0 : encode (.br nzp off9) ≠ 0 := by
    intro hz
    rw [hz] at he
    have hn : nzp = 0 := BitVec.eq_of_toNat_eq (by simp at he ⊢; omega)
    have ho : off9 = 0 := BitVec.eq_of_toNat_eq (by simp at he ⊢; omega)
    simp [Instr.wellFormed, hn, ho] at h
  rw [decode_br h0 (by omega), field_of (b := nzp) (by omega), field_of (b := off9) (by omega)]

/-- The canonical word of a well-formed instruction decodes to the variant the instruction stands for
(30_encoding.md R103, R104). -/
theorem decode_encode {i : Instr} (h : i.wellFormed = true) : decode (encode i) = i.core := by
  cases i
  case add dr sr1 sr2 =>
    obtain ⟨hop, hform, hr, hq, hp⟩ := fields_of_threeRegs (op := 1) (encode_add dr sr1 sr2)
    rw [decode_add hop hform, hr, hq, hp]; rfl
  case addI dr sr1 imm5 =>
    obtain ⟨hop, hform, hr, hq, hi⟩ := fields_of_twoRegsImm5 (op := 1) (encode_addI dr sr1 imm5)
    rw [decode_addI hop hform, hr, hq, hi]; rfl
  case and dr sr1 sr2 =>
    obtain ⟨hop, hform, hr, hq, hp⟩ := fields_of_threeRegs (encode_and dr sr1 sr2)
    rw [decode_and hop hform, hr, hq, hp]; rfl
  case andI dr sr1 imm5 =>
    obtain ⟨hop, hform, hr, hq, hi⟩ := fields_of_twoRegsImm5 (encode_andI dr sr1 imm5)
    rw [decode_andI hop hform, hr, hq, hi]; rfl
  case br nzp off9 => exact decode_encode_br h
  case jmp base =>
    obtain ⟨hop, -, hr⟩ := fields_of_base (encode_jmp base)
    rw [decode_jmp hop, hr]; rfl
  case jsr off11 =>
    have he := encode_jsr off11
    have := off11.isLt
    rw [decode_jsr (by omega) (by omega), field_of (b := off11) (by omega)]; rfl
  case jsrr base =>
    obtain ⟨hop, hform, hr⟩ := fields_of_base (encode_jsrr base)
    rw [decode_jsrr hop hform, hr]; rfl
  case ld dr off9 =>
    obtain ⟨hop, hr, ho⟩ := fields_of_regOff9 (encode_ld dr off9)
    rw [decode_ld hop, hr, ho]; rfl
  case ldi dr off9 =>
    obtain ⟨hop, hr, ho⟩ := fields_of_regOff9 (encode_ldi dr off9)
    rw [decode_ldi hop, hr, ho]; rfl
  case ldr dr base off6 =>
    obtain ⟨hop, hr, hq, ho⟩ := fields_of_twoRegsLow6 off6.isLt (encode_ldr dr base off6)
    rw [decode_ldr hop, hr, hq, BitVec.eq_of_toNat_eq ho]; rfl
  case lea dr off9 =>
    obtain ⟨hop, hr, ho⟩ := fields_of_regOff9 (encode_lea dr off9)
    rw [decode_lea hop, hr, ho]; rfl
  case not dr sr =>
    obtain ⟨hop, hr, hq, -⟩ := fields_of_twoRegsLow6 (by decide) (encode_not dr sr)
    rw [decode_not hop, hr, hq]; rfl
  case st sr off9 =>
    obtain ⟨hop, hr, ho⟩ := fields_of_regOff9 (encode_st sr off9)
    rw [decode_st hop, hr, ho]; rfl
  case sti sr off9 =>
    obtain ⟨hop, hr, ho⟩ := fields_of_regOff9 (encode_sti sr off9)
    rw [decode_sti hop, hr, ho]; rfl
  case str sr base off6 =>
    obtain ⟨hop, hr, hq, ho⟩ := fields_of_twoRegsLow6 off6.isLt (encode_str sr base off6)
    rw [decode_str hop, hr, hq, BitVec.eq_of_toNat_eq ho]; rfl
  case trap v =>
    have he := encode_trap v
    have := v.isLt
    rw [decode_trap (by omega), field_of (b := v) (by omega)]; rfl
  all_goals rfl

/-- The canonical word of a well-formed variant of R103 decodes to that variant. -/
theorem decode_encode_of_isCore {i : Instr} (h : i.wellFormed = true) (hc : i.isCore = true) :
    decode (encode i) = i := by
  rw [decode_encode h, Instr.core_of_isCore hc]

end Sys2Proof

namespace Sys2Proof.Machine

/-! ### The instructions an assembler line can give -/

/-- `i` is a variant of R103 with a word of its own, and not the end of the program. -/
structure LineVariant (i : Instr) : Prop where
  variant : i.isCore = true
  hasWord : i.wellFormed = true
  notEnd : i ≠ .endOfProgram

theorem LineVariant.decode_encode {i : Instr} (h : LineVariant i) : decode (encode i) = i :=
  decode_encode_of_isCore h.hasWord h.variant

/-- Only the end of the program has the word 0x0000. -/
theorem LineVariant.encode_ne_zero {i : Instr} (h : LineVariant i) : encode i ≠ 0x0000 := by
  intro hz
  have hd := h.decode_encode
  rw [hz] at hd
  exact h.notEnd (hd.symm.trans decode_zero)

section
variable {P : Instr → Prop} {p : AsmParams} {tab : Symbols} {c : Word} {i : Instr}

/-! What `mk` makes of the operands of a line has every property `P` that all its values have. -/

theorem mapOperand_ok {α : Type} {mk : α → Instr} {x : Except AsmError α} (h : x.map mk = .ok i)
    (hP : ∀ a, P (mk a)) : P i := by
  cases x with
  | error e => cases h
  | ok a => cases h; exact hP a

theorem regAndField_ok {width : Nat} {mk : Reg → BitVec width → Instr} {r o : Token}
    (h : regAndField p tab c width mk r o = .ok i) (hP : ∀ r b, P (mk r b)) : P i := by
  unfold regAndField at h
  split at h
  · cases h; exact hP _ _
  · cases h
  · cases h

theorem regsAndField_ok {width : Nat} {mk : Reg → Reg → BitVec width → Instr} {r q o : Token}
    (h : regsAndField p tab c width mk r q o = .ok i) (hP : ∀ r q b, P (mk r q b)) : P i := by
  unfold regsAndField at h
  split at h
  · exact regAndField_ok h (hP _)
  · cases h

theorem threeOperand_ok {mkReg : Reg → Reg → Reg → Instr} {mkImm : Reg → Reg → BitVec 5 → Instr}
    {d s t : Token} (h : threeOperand p tab c mkReg mkImm d s t = .ok i)
    (hReg : ∀ d s t, P (mkReg d s t)) (hImm : ∀ d s b, P (mkImm d s b)) : P i := by
  unfold threeOperand at h
  split at h
  · exact regsAndField_ok h fun _ _ _ => hReg _ _ _
  · exact regsAndField_ok h hImm

/-- A BR with a mask that is not empty has a word of its own, whatever its offset. -/
theorem lineVariant_br {nzp : BitVec 3} (h : nzp ≠ 0) (off9 : BitVec 9) : LineVariant (.br nzp off9) :=
  ⟨rfl, by simp only [Instr.wellFormed, beq_false_of_ne h, Bool.false_and, Bool.not_false], nofun⟩

/-- What a line assembles to is a variant with a word of its own, unless the mnemonic is a BR with the empty mask. -/
theorem assembleInstr_lineVariant {m : Mnemonic} {ops : List Token} (hm : m ≠ .br 0)
    (h : assembleInstr p tab c m ops = .ok i) : LineVariant i := by
  unfold assembleInstr at h
  -- the arms of `assembleInstr`, grouped by the operands they read
  split at h
  -- ADD, AND
  case h_1 | h_2 => exact threeOperand_ok h (fun _ _ _ => ⟨rfl, rfl, nofun⟩) fun _ _ _ => ⟨rfl, rfl, nofun⟩
  -- BR
  case h_3 nzp _ => exact mapOperand_ok h (lineVariant_br fun hz => hm (congrArg Mnemonic.br hz))
  -- JMP, JSR, JSRR, TRAP
  case h_4 | h_5 | h_6 | h_17 => exact mapOperand_ok h fun _ => ⟨rfl, rfl, nofun⟩
  -- LDR, STR
  case h_9 | h_14 => exact regsAndField_ok h fun _ _ _ => ⟨rfl, rfl, nofun⟩
  -- LD, LDI, LEA, NOT, ST, STI
  case h_7 | h_8 | h_10 | h_11 | h_12 | h_13 => exact regAndField_ok h fun _ _ => ⟨rfl, rfl, nofun⟩
  -- RET, RTI and the named routines
  case h_15 | h_16 | h_18 => cases h; exact ⟨rfl, rfl, nofun⟩
  -- a wrong number of operands
  case h_19 => cases h

end

/-- No mnemonic of the table is a BR with the empty mask (30_encoding.md R121). -/
theorem mnemonicTable_ne_br_zero : ∀ e ∈ mnemonicTable, e.2 ≠ .br 0 := by decide

/-- Settles O60: every instruction of a line is a variant with a word of its own, which decodes back. -/
theorem assembledWordsDecodeBack : Obligations.AssembledWordsDecodeBack := by
  intro p tab c t m ops i hmem h
  have hi : LineVariant i := assembleInstr_lineVariant (mnemonicTable_ne_br_zero _ hmem) h
  exact ⟨hi.decode_encode, hi.encode_ne_zero⟩

/-! ### Runs -/

/-- Every run of every state is safe: a running block has its step, and a halted one is itself the halt. -/
theorem safeRun (k : Nat) (s : State) : SafeRun k s := by
  induction k generalizing s with
  | zero => exact .inl ⟨s, rfl⟩
  | succ k ih =>
    cases hr : s.run with
    | halted c => exact .inr ⟨0, s, c, k.succ_pos, rfl, hr⟩
    | running =>
      have hstep := step_eq hr
      obtain ⟨t, ht⟩ | ⟨j, t, c, hj, ht, hc⟩ := ih (effect (decode (s.mem.read s.pc)) s.advance)
      · exact .inl ⟨t, (core_run_succ hstep k).trans ht⟩
      · exact .inr ⟨j + 1, t, c, Nat.succ_lt_succ hj, (core_run_succ hstep j).trans ht, hc⟩

/-- Settles O4, by induction on the number of steps, over halted states too. -/
theorem everyRunIsSafe : Obligations.EveryRunIsSafe := fun k s _ => safeRun k s

/-! ### Sign extension -/

/-- Settles O23: a representable value survives both the narrowing to `n` bits and the extension. -/
theorem signExtensionKeepsValue : Obligations.SignExtensionKeepsValue := by
  intro n v hn hlo hhi
  have hpos : 0 < n ∧ n ≤ 16 := (by decide : ∀ n ∈ [5, 6, 9, 11], 0 < n ∧ n ≤ 16) n hn
  rw [sext_toInt hpos.2, BitVec.toInt_ofInt_eq_self hpos.1 hlo hhi]

end Sys2Proof.Machine
end

section
/-! PROOFS. The statements of 10_state.md: what an instruction does to each field of the state (R26, R31, R34, R36, R41,
R56), the invariant, initialization (R45, R47) and the caller's interface (R49 to R52). -/

namespace Sys2Proof

/-! ### Which words decode to the end of the program and to TRAP (30_encoding.md R104) -/

/-- The decoder answers variants of R103 only. -/
theorem decode_isCore (w : Word) : (decode w).isCore = true := by
  unfold decode
  repeat' split
  all_goals rfl

/-- Only a word of opcode 1111 decodes to a TRAP. -/
theorem opcode_of_decode_eq_trap {w : Word} {v : BitVec 8} (h : decode w = .trap v) : w.toNat / 4096 = 15 := by
  have h0 : w ≠ 0 := by rintro rfl; cases h
  have := w.isLt
  rw [decode_eq h0] at h
  split at h
  case h_16 => simp only [imp_false] at *; omega
  case h_2 | h_5 | h_6 => split at h <;> cases h
  all_goals cases h

theorem decode_eq_trap_iff {w : Word} {v : BitVec 8} :
    decode w = .trap v ↔ w.toNat / 4096 = 15 ∧ v.toNat = w.toNat % 256 := by
  have hf : (field w 0 8).toNat = w.toNat % 256 := by simp [field_toNat]
  constructor
  · intro h
    have hop := opcode_of_decode_eq_trap h
    rw [decode_trap hop, Instr.trap.injEq] at h
    exact ⟨hop, h ▸ hf⟩
  · rintro ⟨hop, hv⟩
    rw [decode_trap hop, BitVec.eq_of_toNat_eq (hf.trans hv.symm)]

theorem decode_eq_endOfProgram_iff {w : Word} : decode w = .endOfProgram ↔ w = 0x0000 := by
  constructor
  · intro h
    by_contra h0
    rw [decode_eq h0] at h
    repeat' split at h
    all_goals cases h
  · rintro rfl; exact decode_zero

end Sys2Proof

namespace Sys2Proof.Machine

/-! ### The condition code -/

theorem ccOf_oneFlag (v : Word) : ccOf v = 0b100 ∨ ccOf v = 0b010 ∨ ccOf v = 0b001 := by
  unfold ccOf
  split
  · exact .inl rfl
  · split
    · exact .inr (.inl rfl)
    · exact .inr (.inr rfl)

/-- `SetCC` shows the sign of the value (40_fetch_decode.md R140). -/
theorem signFlag_ccOf (v : Word) : SignFlag (ccOf v) v := by
  have hz : v = 0x0000 ↔ v.toInt = 0 := by rw [← BitVec.toInt_inj]; simp
  unfold ccOf
  simp only [BitVec.msb_eq_toInt, decide_eq_true_eq, hz]
  refine ⟨fun h => if_pos h, fun h => ?_, fun h => ?_⟩
  · rw [if_neg (by omega), if_pos h]
  · rw [if_neg (by omega), if_neg (by omega)]

/-! ### What an instruction does to each field of the state

One lemma a field, in the vocabulary of the spec's tables (`dest`, `setsCC`, `storeOf`, `pcAfter`). -/

/-- Without a drawn value the one vector with an effect is 0x25. -/
theorem afterTrap_of_drawsNothing {v : BitVec 8} (h : drawsInput v = false) (s : State) :
    afterTrap v s = if v = 0x25 then s.haltSentinel else s := by
  obtain ⟨hv, ht⟩ | ⟨-, hd, -⟩ | ⟨hv, -, ht⟩ := afterTrap_cases v s
  · rw [ht, if_pos hv]
  · rw [h] at hd; cases hd
  · rw [ht, if_neg hv]

/-- TRAP writes no register but R0, and R0 for GETC and IN only. -/
theorem afterTrap_readReg {v : BitVec 8} {r : Reg} (h : drawsInput v = true → r ≠ .r0) (s : State) :
    (afterTrap v s).readReg r = s.readReg r := by
  obtain ⟨-, ht⟩ | ⟨-, hd, ht⟩ | ⟨-, -, ht⟩ := afterTrap_cases v s
  · rw [ht]; rfl
  · rw [ht]; exact Regs.read_write_other _ _ (h hd)
  · rw [ht]

/-- A condition-affecting instruction writes a result to its destination register and does nothing else. -/
theorem effect_of_setsCC {i : Instr} (h : setsCC i = true) (s : State) :
    ∃ dr v, dest i = some dr ∧ effect i s = s.writeResult dr v := by
  cases i
  case add | addI | and | andI | ld | ldi | ldr | lea | not => exact ⟨_, _, rfl, rfl⟩
  all_goals cases h

theorem effect_cc_of_not_setsCC {i : Instr} (h : setsCC i = false) (s : State) : (effect i s).cc = s.cc := by
  cases i
  case add | addI | and | andI | ld | ldi | ldr | lea | not => cases h
  case br => simp only [effect]; split <;> rfl
  case trap | getc | out | puts | inp | putsp | halt => exact afterTrap_cc _ s
  all_goals rfl

/-- The two things an instruction can do to cc (10_state.md R34). -/
theorem effect_cc_cases (i : Instr) (s : State) :
    (∃ v, (effect i s).cc = ccOf v) ∨ (setsCC i = false ∧ (effect i s).cc = s.cc) := by
  cases h : setsCC i with
  | true =>
    obtain ⟨dr, v, -, he⟩ := effect_of_setsCC h s
    exact .inl ⟨v, by rw [he, State.writeResult_cc]⟩
  | false => exact .inr ⟨rfl, effect_cc_of_not_setsCC h s⟩

/-- Memory after an instruction: the store of `storeOf` if there is one (20_memory.md R56). -/
theorem effect_mem (i : Instr) (s : State) :
    (effect i s).mem = (storeOf i s).elim s.mem fun e => s.mem.write e.1 (s.readReg e.2) := by
  cases i
  case br => simp only [effect]; split <;> rfl
  case trap | getc | out | puts | inp | putsp | halt => exact afterTrap_mem _ s
  all_goals rfl

/-- No register changes but the one of the instruction's row of 10_state.md R26. -/
theorem effect_readReg {i : Instr} {r : Reg} (h : dest i ≠ some r) (s : State) :
    (effect i s).readReg r = s.readReg r := by
  cases i
  case add dr _ _ | addI dr _ _ | and dr _ _ | andI dr _ _ | ld dr _ | ldi dr _ | ldr dr _ _ | lea dr _ | not dr _ =>
    exact Regs.read_write_other _ _ fun hr => h (congrArg some hr.symm)
  case jsr | jsrr => exact Regs.read_write_other _ _ fun hr => h (congrArg some hr.symm)
  case br => simp only [effect]; split <;> rfl
  case trap v =>
    refine afterTrap_readReg (fun hd hr => h ?_) s
    simp only [drawsInput, Bool.or_eq_true, beq_iff_eq] at hd
    rw [hr, dest, if_pos hd]
  case getc | inp => exact afterTrap_readReg (fun _ hr => h (congrArg some hr.symm)) s
  case out | puts | putsp | halt => refine afterTrap_readReg (fun hd => ?_) s; cases hd
  all_goals rfl

/-- The pc after an instruction is the one of the table of 10_state.md R31. -/
theorem effect_advance_pc (i : Instr) (s : State) : (effect i s.advance).pc = pcAfter i s := by
  cases i
  case endOfProgram =>
    show zeroHaltTarget Config.zeroHaltPc s.advance = pcAfter .endOfProgram s
    cases hp : Config.zeroHaltPc <;> simp [zeroHaltTarget, pcAfter, hp]
  case br nzp off9 =>
    simp only [effect, branchTaken, pcAfter, bne_iff_ne, State.advance_cc]
    split <;> rfl
  case jsrr base =>
    show jsrrTarget Config.jsrrLinkFirst base s.advance = pcAfter (.jsrr base) s
    by_cases hb : base = .r7
    · cases hl : Config.jsrrLinkFirst <;> simp [jsrrTarget, pcAfter, hb, hl]
    · simp [jsrrTarget, pcAfter, hb]
  case trap | getc | out | puts | inp | putsp | halt => exact afterTrap_pc _ s.advance
  all_goals rfl

/-- The run status after an instruction: only the end of the program and TRAP 0x25 halt (10_state.md R41). -/
theorem effect_run (i : Instr) (s : State) :
    (effect i s).run = if i = .endOfProgram then .halted .zeroWord
      else if i.core = .trap 0x25 then .halted .trapHalt else s.run := by
  cases i
  case br => simp only [effect]; split <;> rfl
  case trap v => simpa [Instr.core, effect] using afterTrap_run v s
  case getc | out | puts | inp | putsp | halt => exact afterTrap_run _ s
  all_goals rfl

/-- cc reaches no other field through an instruction that is no BR and draws no value (10_state.md R35). -/
theorem effect_with_cc {i : Instr} (hbr : ∀ nzp off9, i ≠ .br nzp off9) (hin : takesInput i = false) (s : State)
    (c : BitVec 3) : ∃ c', effect i { s with cc := c } = { effect i s with cc := c' } := by
  cases i
  case br => exact absurd rfl (hbr _ _)
  case getc | inp => cases hin
  case trap v =>
    simp only [effect, afterTrap_of_drawsNothing (v := v) hin]
    split <;> exact ⟨c, rfl⟩
  all_goals exact ⟨_, rfl⟩

/-! ### The invariant -/

theorem legalCC_iff (cc : BitVec 3) :
    legalCC cc = true ↔ cc = 0b000 ∨ cc = 0b100 ∨ cc = 0b010 ∨ cc = 0b001 := by
  simp [legalCC, or_assoc]

theorem effect_legalCC {s : State} (h : legalCC s.cc = true) (i : Instr) : legalCC (effect i s).cc = true := by
  obtain ⟨v, hv⟩ | ⟨-, hc⟩ := effect_cc_cases i s
  · rw [hv, legalCC_iff]; exact .inr (ccOf_oneFlag v)
  · rwa [hc]

theorem effect_wf {s : State} (h : s.mem.wf = true) (i : Instr) : (effect i s).mem.wf = true := by
  rw [effect_mem]
  cases storeOf i s with
  | none => exact h
  | some e => exact Memory.wf_write h _ _

/-- Settles O14: each half of the invariant survives the increment and the handler. -/
theorem stepKeepsInv : Obligations.StepKeepsInv := by
  intro s t hs hst
  obtain ⟨hmem, hcc⟩ := hs
  obtain ⟨-, rfl⟩ := step_inv hst
  exact ⟨effect_wf (s := s.advance) hmem _, effect_legalCC (s := s.advance) hcc _⟩

/-! ### What a step does -/

/-- Settles O5, from the run status after the decoded instruction. -/
theorem onlyTwoEventsHalt : Obligations.OnlyTwoEventsHalt := by
  intro s t hst
  obtain ⟨hr, rfl⟩ := step_inv hst
  have htrap : decode (s.mem.read s.pc) = .trap 0x25 ↔
      (s.mem.read s.pc).toNat / 4096 = 0xF ∧ (s.mem.read s.pc).toNat % 256 = 0x25 := by
    rw [decode_eq_trap_iff, eq_comm (a := BitVec.toNat _)]; rfl
  rw [effect_run, Instr.core_of_isCore (decode_isCore _), State.advance_run, hr, ← decode_eq_endOfProgram_iff, ← htrap]
  by_cases hz : decode (s.mem.read s.pc) = .endOfProgram
  · simp [hz]
  · by_cases ht : decode (s.mem.read s.pc) = .trap 0x25
    · simp [ht]
    · rw [if_neg hz, if_neg ht]
      exact ⟨iff_of_false nofun hz, iff_of_false nofun ht⟩

/-- Settles O6. -/
theorem pcAfterEveryStep : Obligations.PcAfterEveryStep := by
  intro s t hst
  obtain ⟨-, rfl⟩ := step_inv hst
  exact effect_advance_pc _ s

/-- Settles O15: cc after a step is the flag of a result or the cc before. -/
theorem ccIsZeroOnlyBeforeTheFirstResult : Obligations.CcIsZeroOnlyBeforeTheFirstResult := by
  refine ⟨rfl, fun s t hst => ?_⟩
  obtain ⟨-, rfl⟩ := step_inv hst
  refine ⟨fun hi => ?_, fun hne => ?_, fun hl => effect_legalCC (s := s.advance) hl _⟩
  · obtain ⟨dr, v, -, he⟩ := effect_of_setsCC hi s.advance
    rw [he]; exact ccOf_oneFlag v
  · obtain ⟨v, hv⟩ | ⟨-, hc⟩ := effect_cc_cases (decode (s.mem.read s.pc)) s.advance
    · rw [hv]; rcases ccOf_oneFlag v with h | h | h <;> rw [h] <;> decide
    · rw [hc]; exact hne

/-- Settles O16. -/
theorem registerWritersAreListed : Obligations.RegisterWritersAreListed := by
  intro i s t ht r hr
  rw [exec_inv ht, effect_readReg hr]

/-- Settles O17. -/
theorem ccWritersAreListed : Obligations.CcWritersAreListed := by
  intro i s t ht
  obtain rfl := exec_inv ht
  refine ⟨fun hi => ?_, fun hi => effect_cc_of_not_setsCC hi s⟩
  obtain ⟨dr, v, hd, he⟩ := effect_of_setsCC hi s
  refine ⟨dr, hd, ?_⟩
  rw [he, State.readReg_def, State.writeResult_regs, Regs.read_write_same]
  exact signFlag_ccOf v

/-- Settles O19: the next states differ in cc alone. -/
theorem onlyBrReadsCc : Obligations.OnlyBrReadsCc := by
  intro i s c hbr hin
  obtain ⟨c', he⟩ := effect_with_cc hbr hin s c
  exact ⟨_, _, exec_eq i s, (exec_eq i _).trans (congrArg _ he), rfl, rfl, rfl, rfl⟩

/-! ### Initialization -/

theorem initMemory_wf {r : InitRequest} {m : Memory} (h : initMemory r = .ok m) : m.wf = true := by
  unfold initMemory at h
  split at h
  · cases h; exact Memory.wf_ofFun _
  · cases h
  · split at h
    · cases h; exact Memory.wf_loadWords (Memory.wf_ofFun _) _ _
    · cases h

/-- A completed initialization: its memory, its registers and the fixed fields (70_reset_and_hazards.md R197, R203). -/
theorem init_inv {r : InitRequest} {s : State} (h : init r = .ok s) :
    ∃ m x, initMemory r = .ok m ∧ initRegs r = .ok x ∧
      s = { regs := x, pc := r.startPc, cc := 0b000, mem := m, run := .running, draws := 0 } := by
  unfold init at h
  split at h
  · rename_i m x hm hx; cases h; exact ⟨m, x, hm, hx, rfl⟩
  · cases h
  · cases h

/-- Settles O13. -/
theorem resetSatisfiesInv : Obligations.ResetSatisfiesInv := by
  refine ⟨⟨Memory.wf_nil, rfl⟩, fun r s h => ?_⟩
  obtain ⟨m, x, hm, -, rfl⟩ := init_inv h
  exact ⟨initMemory_wf hm, rfl⟩

/-- A memory that reads as an unlisted one everywhere lists nothing. -/
theorem Memory.ofFun_unlisted : Memory.ofFun (fun _ => Memory.unlisted) = [] := by
  simp [Memory.ofFun, Memory.tabulate]

/-- Settles O50. -/
theorem resetIsAnInit : Obligations.ResetIsAnInit := by
  have hm : Memory.ofFun (fun _ => 0x0000) = [] := Memory.ofFun_unlisted
  simp only [Obligations.ResetIsAnInit, init, initMemory, initRegs, hm]; rfl

/-! ### Interface -/

/-- Settles O51: the output names the fetched word, and O5 says what halts on it. -/
theorem stepOutputsAreExact : Obligations.StepOutputsAreExact := by
  intro s t hst
  have hend : (stepOutput s t).endOfProgram = true ↔ s.mem.read s.pc = 0x0000 := beq_iff_eq
  exact ⟨rfl, hend, hend.trans (onlyTwoEventsHalt s t hst).1.symm⟩

/-- The service port carries a call exactly when a running block fetches a TRAP with a recognized vector. -/
theorem serviceCall_eq_some_iff {s h : State} {v : BitVec 8} :
    serviceCall s = some (v, h) ↔
      s.run = .running ∧ decode (s.mem.read s.pc) = .trap v ∧ recognizedVector v = true ∧ h = s.advance := by
  constructor
  · intro hc
    unfold serviceCall at hc
    split at hc
    · cases hc
    · rename_i hr
      split at hc
      · rename_i hd
        split at hc
        · rename_i hv; cases hc; exact ⟨hr, hd, hv, rfl⟩
        · cases hc
      · cases hc
  · rintro ⟨hr, hd, hv, rfl⟩
    have hd : decode s.fetch = .trap v := hd
    simp [serviceCall, hr, hd, hv]

/-- A TRAP with a recognized vector goes on with the collaborator's reply, and halts after vector 0x25 (46_system.md
R172, R173). -/
theorem afterTrap_recognized {v : BitVec 8} (h : recognizedVector v = true) (s : State) :
    afterTrap v s = if v = 0x25 then (collaborator v s).haltSentinel else collaborator v s := if_pos h

/-- Settles O52. -/
theorem serviceIsCalledForSixVectors : Obligations.ServiceIsCalledForSixVectors := by
  intro s h v
  rw [serviceCall_eq_some_iff]
  constructor
  · rw [decode_eq_trap_iff, recognizedVector, decide_eq_true_eq, and_assoc, and_assoc]; rfl
  · rintro ⟨hr, hd, hv, rfl⟩ u hu
    rw [trapService_eq] at hu
    cases hu
    rw [step_eq hr, hd]
    exact congrArg _ (afterTrap_recognized hv _)

/-- Settles O53. -/
theorem callerWriteTakesEffect : Obligations.CallerWriteTakesEffect := by
  intro s a v
  refine ⟨fun b => Memory.read_write s.mem a b v, fun hr ha => ?_⟩
  have hfetch : (callerWrite s a v).mem.read (callerWrite s a v).pc = v := by
    simp [callerWrite, ha]
  rw [step_eq (s := callerWrite s a v) hr, hfetch, ← exec_eq]
  rfl

end Sys2Proof.Machine
end

section
/-! PROOFS. The statements of 20_memory.md: a read after a write (R55), who writes memory (R56, R72), a store seen by
later fetches (R66, R69), and the uniqueness of the canonical memory (R53, R54). -/

namespace Sys2Proof.Machine

/-- Settles O21. -/
theorem readAfterWrite : Obligations.ReadAfterWrite := fun s a b v => Memory.read_write s.mem a b v

/-! ### What an instruction does to each word of memory -/

/-- A store writes its register at its address and leaves every other word. -/
theorem effect_read_of_store {i : Instr} {s : State} {a : Word} {sr : Reg} (h : storeOf i s = some (a, sr)) (b : Word) :
    (effect i s).mem.read b = if b = a then s.readReg sr else s.mem.read b := by
  rw [effect_mem, h]; exact Memory.read_write s.mem a b _

/-- A word no store is addressed to stays. -/
theorem effect_read_of_no_store {i : Instr} {s : State} {a : Word} (h : ∀ sr, storeOf i s ≠ some (a, sr)) :
    (effect i s).mem.read a = s.mem.read a := by
  cases hst : storeOf i s with
  | none => rw [effect_mem, hst]; rfl
  | some e =>
    obtain ⟨b, sr⟩ := e
    have hab : a ≠ b := by rintro rfl; exact h sr hst
    rw [effect_read_of_store hst, if_neg hab]

/-- Settles O18. -/
theorem memoryWritersAreListed : Obligations.MemoryWritersAreListed := by
  intro i s t ht a
  obtain rfl := exec_inv ht
  exact ⟨fun sr hst => (effect_read_of_store hst a).trans (if_pos rfl), effect_read_of_no_store⟩

/-! ### A store and the fetches after it -/

/-- The step from `s` stores nothing at `a`. -/
def StoresNothingAt (a : Word) (s : State) : Prop :=
  ∀ q, storeOf (decode (s.mem.read s.pc)) s.advance ≠ some (a, q)

/-- A run of `k + 1` steps is a step and a run of `k` steps. -/
theorem core_run_succ_inv {k : Nat} {s u : State} (h : Sys2Proof.core.run (k + 1) s = .next u) :
    ∃ t, step s = .next t ∧ Sys2Proof.core.run k t = .next u := by
  cases hr : s.run with
  | running => exact ⟨_, step_eq hr, (core_run_succ (step_eq hr) k).symm.trans h⟩
  | halted c =>
    have hst : Sys2Proof.core.step s = .fault (.halted c) := step_halted hr
    simp only [Host.Core.run, hst] at h
    cases h

/-- A word stays as long as no step of the run stores there. -/
theorem run_read_of_no_store {a : Word} {k : Nat} {s u : State} (hu : Sys2Proof.core.run k s = .next u)
    (hno : ∀ (j : Nat) (v : State), j < k → Sys2Proof.core.run j s = .next v → StoresNothingAt a v) :
    u.mem.read a = s.mem.read a := by
  induction k generalizing s with
  | zero => cases hu; rfl
  | succ k ih =>
    obtain ⟨t, hst, hu⟩ := core_run_succ_inv hu
    have hrest : u.mem.read a = t.mem.read a :=
      ih hu fun j v hj hv => hno (j + 1) v (Nat.succ_lt_succ hj) ((core_run_succ hst j).trans hv)
    obtain ⟨-, rfl⟩ := step_inv hst
    exact hrest.trans (effect_read_of_no_store (hno 0 s k.succ_pos rfl))

/-- Settles O20: the word the store wrote, kept along every run without a store to its address. -/
theorem storeIsSeenByFetch : Obligations.StoreIsSeenByFetch := by
  intro s t ea sr _ hstore hst
  obtain ⟨-, rfl⟩ := step_inv hst
  have hread := effect_read_of_store (s := s.advance) hstore
  exact ⟨hread, fun k u hu hno => (run_read_of_no_store hu hno).trans ((hread ea).trans (if_pos rfl))⟩

/-! ### Uniqueness of the canonical memory -/

/-- A key that no entry has reads as an unlisted address. -/
theorem Memory.lookup_of_forall_ne {m : Memory} {a : Nat} (h : ∀ e ∈ m, e.1 ≠ a) :
    Memory.lookup m a = Memory.unlisted := by
  induction m with
  | nil => rfl
  | cons e rest ih =>
    obtain ⟨hne, hrest⟩ := List.forall_mem_cons.mp h
    exact (if_neg hne).trans (ih hrest)

/-- A word that reads otherwise than an unlisted one is not below the first of rising keys. -/
theorem Memory.head_le_of_lookup_ne {l k a : Nat} {v : Word} {rest : Memory}
    (h : Memory.risesFrom l ((k, v) :: rest) = true) (ha : Memory.lookup ((k, v) :: rest) a ≠ Memory.unlisted) : k ≤ a := by
  have hk : Memory.risesFrom k ((k, v) :: rest) = true :=
    (Memory.risesFrom_cons k k v rest).mpr ⟨le_rfl, ((Memory.risesFrom_cons l k v rest).mp h).2⟩
  exact le_of_not_gt fun hlt => ha (Memory.lookup_of_risesFrom_lt hk hlt)

theorem Memory.lookup_cons_same (k : Nat) (v : Word) (rest : Memory) : Memory.lookup ((k, v) :: rest) k = v := if_pos rfl

theorem Memory.lookup_cons_other {k a : Nat} (h : k ≠ a) (v : Word) (rest : Memory) :
    Memory.lookup ((k, v) :: rest) a = Memory.lookup rest a := if_neg h

/-- Rising lists without an entry of the unlisted word are equal if they read the same under every key: each head's key
is the least that reads otherwise than an unlisted one, and the rests read the same above it. -/
theorem Memory.eq_of_lookup_eq {m m' : Memory} {l l' : Nat} (hm : Memory.risesFrom l m = true)
    (hm' : Memory.risesFrom l' m' = true) (hv : ∀ e ∈ m, e.2 ≠ Memory.unlisted) (hv' : ∀ e ∈ m', e.2 ≠ Memory.unlisted)
    (h : ∀ a, Memory.lookup m a = Memory.lookup m' a) : m = m' := by
  induction m generalizing m' l l' with
  | nil =>
    cases m' with
    | nil => rfl
    | cons e rest' =>
      exact absurd ((Memory.lookup_cons_same e.1 e.2 rest').symm.trans (h e.1).symm) (List.forall_mem_cons.mp hv').1
  | cons e rest ih =>
    obtain ⟨k, v⟩ := e
    obtain ⟨hk, hvrest⟩ := List.forall_mem_cons.mp hv
    have hrest := ((Memory.risesFrom_cons l k v rest).mp hm).2
    cases m' with
    | nil => exact absurd ((Memory.lookup_cons_same k v rest).symm.trans (h k)) hk
    | cons e' rest' =>
      obtain ⟨k', v'⟩ := e'
      obtain ⟨hk', hvrest'⟩ := List.forall_mem_cons.mp hv'
      have hrest' := ((Memory.risesFrom_cons l' k' v' rest').mp hm').2
      have hle : k ≤ k' := Memory.head_le_of_lookup_ne hm (by rwa [h, Memory.lookup_cons_same])
      have hge : k' ≤ k := Memory.head_le_of_lookup_ne hm' (by rwa [← h, Memory.lookup_cons_same])
      obtain rfl : k = k' := le_antisymm hle hge
      obtain rfl : v = v' := by simpa only [Memory.lookup_cons_same] using h k
      refine congrArg _ (ih hrest hrest' hvrest hvrest' fun a => ?_)
      by_cases ha : k = a
      · subst ha
        rw [Memory.lookup_of_risesFrom_lt hrest k.lt_succ_self, Memory.lookup_of_risesFrom_lt hrest' k.lt_succ_self]
      · simpa only [Memory.lookup_cons_other ha] using h a

/-- No canonical memory lists a key that is no address. -/
theorem Memory.lookup_of_wf_of_not_lt {m : Memory} (hm : m.wf = true) {a : Nat} (ha : ¬ a < 65536) :
    Memory.lookup m a = Memory.unlisted :=
  Memory.lookup_of_forall_ne fun e he hea => ha (hea ▸ (((Memory.wf_iff m).mp hm).2 e he).1)

/-- Settles O22: the reads of a canonical memory say what stands under every key, address or not. -/
theorem canonicalMemoryIsUnique : Obligations.CanonicalMemoryIsUnique := by
  intro m m' hm hm' h
  obtain ⟨hrise, hent⟩ := (Memory.wf_iff m).mp hm
  obtain ⟨hrise', hent'⟩ := (Memory.wf_iff m').mp hm'
  refine Memory.eq_of_lookup_eq hrise hrise' (fun e he => (hent e he).2) (fun e he => (hent' e he).2) fun a => ?_
  by_cases ha : a < 65536
  · simpa only [Memory.read, BitVec.toNat_ofNat, Nat.mod_eq_of_lt ha] using h (BitVec.ofNat 16 a)
  · rw [Memory.lookup_of_wf_of_not_lt hm ha, Memory.lookup_of_wf_of_not_lt hm' ha]

end Sys2Proof.Machine
end

section
/-! PROOFS. The statements of 30_encoding.md: the decode function (R101, R104), its inverse on canonical words (R106,
R124), the don't-care bits (R95), and what the assembler renders (R111, R116, R118, R127). -/

namespace Sys2Proof

/-! ### The fields of a word as remainders of quotients -/

/-- A field is the remainder of a quotient of the word's number; `field_eq` without the narrowing. -/
theorem field_eq_mod (w : Word) (lo len : Nat) : field w lo len = BitVec.ofNat len (w.toNat / 2 ^ lo % 2 ^ len) := by
  rw [field_eq, ← BitVec.toNat_inj, BitVec.toNat_ofNat, BitVec.toNat_ofNat, Nat.mod_mod]

theorem field_zero_eq_mod (w : Word) (len : Nat) : field w 0 len = BitVec.ofNat len (w.toNat % 2 ^ len) := by
  rw [field_eq_mod, pow_zero, Nat.div_one]

theorem regHigh_eq (w : Word) : regHigh w = Reg.ofField (BitVec.ofNat 3 (w.toNat / 512 % 8)) :=
  congrArg Reg.ofField (field_eq_mod w 9 3)

theorem regMid_eq (w : Word) : regMid w = Reg.ofField (BitVec.ofNat 3 (w.toNat / 64 % 8)) :=
  congrArg Reg.ofField (field_eq_mod w 6 3)

theorem regLow_eq (w : Word) : regLow w = Reg.ofField (BitVec.ofNat 3 (w.toNat % 8)) :=
  congrArg Reg.ofField (field_zero_eq_mod w 3)

/-- Settles O7: with every field read as a remainder of a quotient, the clauses are the decoder's lemmas, one an
opcode. -/
theorem decodeReadsEachField : Obligations.DecodeReadsEachField := by
  intro w n op high mid low imm5 off6 off9
  have hnzp : BitVec.ofNat 3 (n / 512 % 8) = field w 9 3 := (field_eq_mod w 9 3).symm
  have hhigh : high = regHigh w := (regHigh_eq w).symm
  have hmid : mid = regMid w := (regMid_eq w).symm
  have hlow : low = regLow w := (regLow_eq w).symm
  have himm5 : imm5 = field w 0 5 := (field_zero_eq_mod w 5).symm
  have hoff6 : off6 = field w 0 6 := (field_zero_eq_mod w 6).symm
  have hoff9 : off9 = field w 0 9 := (field_zero_eq_mod w 9).symm
  have hoff11 : BitVec.ofNat 11 (n % 2048) = field w 0 11 := (field_zero_eq_mod w 11).symm
  have hvect8 : BitVec.ofNat 8 (n % 256) = field w 0 8 := (field_zero_eq_mod w 8).symm
  have hzero : n = 0 ↔ w = 0 := BitVec.toNat_inj (y := 0)
  rw [hnzp, hhigh, hmid, hlow, himm5, hoff6, hoff9, hoff11, hvect8]
  exact ⟨fun h0 => decode_eq_endOfProgram_iff.mpr (hzero.mp h0), fun h0 => decode_br (mt hzero.mpr h0), decode_add, decode_addI, decode_ld, decode_st,
    decode_jsr, decode_jsrr, decode_and, decode_andI, decode_ldr, decode_str, decode_rti, decode_not, decode_ldi,
    decode_sti, decode_jmp, decode_unrecognized, decode_lea, decode_trap⟩

/-! ### Decode and encode -/

/-- Settles O8. -/
theorem decodeOfEncode : Obligations.DecodeOfEncode :=
  fun _ h => ⟨decode_encode h, decode_encode_of_isCore h⟩

/-- A BR word is not the end-of-program word, so its mask and its offset are not both zero (R97). -/
theorem br_wellFormed_of_word {w : Word} (h0 : w ≠ 0) (hop : w.toNat / 4096 = 0) :
    (Instr.br (field w 9 3) (field w 0 9)).wellFormed = true := by
  have hnzp := field_toNat w 9 3
  have hoff := field_toNat w 0 9
  have hne : ¬ (field w 9 3 = 0 ∧ field w 0 9 = 0) := by
    rintro ⟨hn, ho⟩
    rw [hn] at hnzp
    rw [ho] at hoff
    exact h0 (BitVec.eq_of_toNat_eq (by simp at hnzp hoff ⊢; omega))
  simpa [Instr.wellFormed, imp_iff_not_or] using hne

/-- The decoder answers instructions with a word of their own. -/
theorem decode_wellFormed (w : Word) : (decode w).wellFormed = true := by
  by_cases h0 : w = 0
  · rw [h0, decode_zero]; rfl
  · rw [decode_eq h0]
    split
    case h_1 hop => exact br_wellFormed_of_word h0 hop
    case h_2 | h_5 | h_6 => split <;> rfl
    all_goals rfl

/-- Settles O9: what a word decodes to is a well-formed variant, so O8 applies to it. -/
theorem decodeOfCanonicalWord : Obligations.DecodeOfCanonicalWord :=
  fun w => ⟨decode_wellFormed w, decode_encode_of_isCore (decode_wellFormed w) (decode_isCore w)⟩

end Sys2Proof

namespace Sys2Proof.Machine

/-- Settles O3. -/
theorem noEncodingIsIllegal : Obligations.NoEncodingIsIllegal :=
  fun w s => ⟨decode_isCore w, _, exec_eq (decode w) s⟩

/-! ### Don't-care bits (R95) -/

/-- A field whose bits the mask all keeps. -/
theorem field_and_mask {lo len : Nat} {m : Word} (h : field m lo len = BitVec.allOnes len) (w : Word) :
    field (w &&& m) lo len = field w lo len := by
  rw [field, BitVec.extractLsb'_and, ← field, ← field, h, BitVec.and_allOnes]

theorem opcode_and_mask {m : Word} (h : field m 12 4 = BitVec.allOnes 4) (w : Word) :
    (w &&& m).toNat / 4096 = w.toNat / 4096 := by
  rw [← opcode_toNat, field_and_mask h, opcode_toNat]

/-- One kept bit, as the remainder the decoder's lemmas ask for. -/
theorem bit_and_mask {i : Nat} {m : Word} (h : field m i 1 = BitVec.allOnes 1) (w : Word) :
    (w &&& m).toNat / 2 ^ i % 2 = w.toNat / 2 ^ i % 2 := by
  have := congrArg BitVec.toNat (field_and_mask h w)
  simpa only [field_toNat, pow_one] using this

theorem regHigh_and_mask {m : Word} (h : field m 9 3 = BitVec.allOnes 3) (w : Word) : regHigh (w &&& m) = regHigh w :=
  congrArg Reg.ofField (field_and_mask h w)

theorem regMid_and_mask {m : Word} (h : field m 6 3 = BitVec.allOnes 3) (w : Word) : regMid (w &&& m) = regMid w :=
  congrArg Reg.ofField (field_and_mask h w)

theorem regLow_and_mask {m : Word} (h : field m 0 3 = BitVec.allOnes 3) (w : Word) : regLow (w &&& m) = regLow w :=
  congrArg Reg.ofField (field_and_mask h w)

theorem bit_eq_zero_of_getLsbD {w : Word} {i : Nat} (h : ¬ w.getLsbD i = true) : w.toNat / 2 ^ i % 2 = 0 := by
  rw [BitVec.getLsbD, Nat.testBit_eq_decide_div_mod_eq, decide_eq_true_eq] at h
  omega

/-- The decoder reads no don't-care bit. -/
theorem decode_and_careMask (w : Word) : decode (w &&& careMask w) = decode w := by
  have hall : w &&& 0xFFFF = w := BitVec.and_allOnes
  unfold careMask
  split
  case h_1 hop =>
    split
    · rw [hall]
    · next hbit =>
      have h5 := bit_eq_zero_of_getLsbD hbit
      rw [decode_add hop h5, decode_add ((opcode_and_mask rfl w).trans hop) ((bit_and_mask (i := 5) rfl w).trans h5),
        regHigh_and_mask rfl, regMid_and_mask rfl, regLow_and_mask rfl]
  case h_2 hop =>
    split
    · rw [hall]
    · next hbit =>
      have h5 := bit_eq_zero_of_getLsbD hbit
      rw [decode_and hop h5, decode_and ((opcode_and_mask rfl w).trans hop) ((bit_and_mask (i := 5) rfl w).trans h5),
        regHigh_and_mask rfl, regMid_and_mask rfl, regLow_and_mask rfl]
  case h_3 hop => rw [decode_jmp hop, decode_jmp ((opcode_and_mask rfl w).trans hop), regMid_and_mask rfl]
  case h_4 hop =>
    split
    · rw [hall]
    · next hbit =>
      have h11 := bit_eq_zero_of_getLsbD hbit
      rw [decode_jsrr hop h11, decode_jsrr ((opcode_and_mask rfl w).trans hop) ((bit_and_mask (i := 11) rfl w).trans h11),
        regMid_and_mask rfl]
  case h_5 hop =>
    rw [decode_not hop, decode_not ((opcode_and_mask rfl w).trans hop), regHigh_and_mask rfl, regMid_and_mask rfl]
  case h_6 hop => rw [decode_trap hop, decode_trap ((opcode_and_mask rfl w).trans hop), field_and_mask rfl]
  case h_7 hop => rw [decode_rti hop, decode_rti ((opcode_and_mask rfl w).trans hop)]
  case h_8 hop => rw [decode_unrecognized hop, decode_unrecognized ((opcode_and_mask rfl w).trans hop)]
  case h_9 => rw [hall]

/-- Settles O10: both words decode to one variant. -/
theorem dontCareBitsDoNotMatter : Obligations.DontCareBitsDoNotMatter := by
  intro w s
  rw [decode_and_careMask]

/-! ### Operand fields of the assembler -/

/-- Settles O56. -/
theorem fieldsTruncateSilently : Obligations.FieldsTruncateSilently := by
  intro n v
  have hpos : (0 : Int) < 2 ^ n := by positivity
  rw [fieldOf, BitVec.toNat_ofInt, Nat.cast_pow, Nat.cast_ofNat, Int.toNat_of_nonneg (Int.emod_nonneg v hpos.ne')]

/-- A value the field can represent is read back by its sign extension (R13, R117). -/
theorem sext_fieldOf {n : Nat} {v : Int} (hn : 0 < n ∧ n ≤ 16) (hlo : -(2 ^ (n - 1)) ≤ v) (hhi : v < 2 ^ (n - 1)) :
    sext (fieldOf n v) = BitVec.ofInt 16 v := by
  rw [sext_eq_ofInt hn.2, fieldOf, BitVec.toInt_ofInt_eq_self hn.1 hlo hhi]

/-- The incremented pc plus a label offset is the label's address modulo 2^16 (R116, R132). -/
theorem add_ofInt_labelOffset (a c : Word) : c + 1 + BitVec.ofInt 16 (labelOffset a c) = a := by
  calc c + 1 + BitVec.ofInt 16 (labelOffset a c)
      = BitVec.ofInt 16 ((c.toNat + 1) + labelOffset a c) := by simp [BitVec.ofInt_add]
    _ = BitVec.ofInt 16 a.toNat := by rw [labelOffset, add_sub_cancel]
    _ = a := by simp

/-- Settles O55. -/
theorem labelOffsetReachesTheLabel : Obligations.LabelOffsetReachesTheLabel := by
  intro n a c hn hlo hhi
  have hwidth : 0 < n ∧ n ≤ 16 := (by decide : ∀ n ∈ [5, 6, 9, 11], 0 < n ∧ n ≤ 16) n hn
  rw [sext_fieldOf hwidth hlo hhi, add_ofInt_labelOffset]

/-! ### Output lines -/

/-- A nibble's digit has the nibble's value (R127). -/
theorem digitValue_hexChar (b : BitVec 4) : digitValue 16 (hexChar b) = some b.toNat := by
  revert b; decide

theorem hexLineToBinary_hexChar_cons {b : BitVec 4} {cs bits : List Char} (h : hexLineToBinary cs = some bits) :
    hexLineToBinary (hexChar b :: cs) = some (nibbleBits b.toNat ++ bits) := by
  rw [hexLineToBinary, digitValue_hexChar, h]

/-- The four characters of a nibble of a word are the word's bits. -/
theorem nibbleBits_field (w : Word) (lo : Nat) :
    nibbleBits (field w lo 4).toNat = (List.range 4).map fun i => bitChar (w.getLsbD (lo + (3 - i))) := by
  refine List.map_congr_left fun i _ => ?_
  have hi : 3 - i < 4 := by omega
  rw [BitVec.ofNat_toNat, BitVec.setWidth_eq, field, BitVec.getLsbD_extractLsb', decide_eq_true hi, Bool.true_and]

/-- Settles O58: the four nibbles, each mapped to its bits, are the sixteen bits in order. -/
theorem hexLinesConvertToBinary : Obligations.HexLinesConvertToBinary := by
  intro w
  have hline : hexLineToBinary (renderHex w) = some (nibbleBits (field w 12 4).toNat ++
      (nibbleBits (field w 8 4).toNat ++ (nibbleBits (field w 4 4).toNat ++ (nibbleBits (field w 0 4).toNat ++ [])))) :=
    hexLineToBinary_hexChar_cons <| hexLineToBinary_hexChar_cons <| hexLineToBinary_hexChar_cons <|
      hexLineToBinary_hexChar_cons rfl
  rw [hline]
  simp only [nibbleBits_field]
  rfl

/-! ### The two passes (R111, R112) -/

/-- The two quote characters are two characters. -/
theorem two_le_length_of_quotedText {n : Nat} {cs text : List Char} (h : quotedText n cs = some text) :
    2 ≤ text.length := by
  simp only [quotedText] at h
  split at h
  · rename_i hq; cases h; exact hq.1
  · cases h

/-- The text of a parsed `.STRINGZ` stands in quotes. -/
theorem two_le_length_of_parseBody {p : AsmParams} {line : List Char} {skipped : Nat} {ts : List Token}
    {text : List Char} (h : parseBody p line skipped ts = .stringz (some text)) : 2 ≤ text.length := by
  unfold parseBody at h
  split at h
  · cases h
  · split at h
    case h_6 => exact two_le_length_of_quotedText (Body.stringz.inj h)
    all_goals cases h

theorem parseLine_body (p : AsmParams) (line : List Char) :
    ∃ skipped ts, (parseLine p line).body = parseBody p line skipped ts := by
  unfold parseLine
  split
  · exact ⟨0, [], rfl⟩
  · next t ts _ =>
    split
    · exact ⟨1, t :: ts, rfl⟩
    · exact ⟨2, ts, rfl⟩

theorem two_le_length_of_parseLine {p : AsmParams} {line text : List Char}
    (h : (parseLine p line).body = .stringz (some text)) : 2 ≤ text.length := by
  obtain ⟨skipped, ts, hbody⟩ := parseLine_body p line
  exact two_le_length_of_parseBody (hbody.symm.trans h)

/-- The characters between the quotes and the terminator (R112). -/
theorem length_stringzWords {text : List Char} (h : 2 ≤ text.length) : (stringzWords text).length = text.length - 1 := by
  simp [stringzWords]; omega

theorem exists_of_map_eq_ok {α β : Type} {f : α → β} {x : Except AsmError α} {b : β} (h : x.map f = .ok b) :
    ∃ a, x = .ok a ∧ f a = b := by
  cases x with
  | error e => cases h
  | ok a => cases h; exact ⟨a, rfl, rfl⟩

/-- What a body emits is as long as the first pass counts, given a mnemonic or a directive and quoted text. -/
theorem length_of_emitBody {p : AsmParams} {tab : Symbols} {c : Word} {b : Body} {out : List OutLine} {n : Nat}
    (hknown : b ≠ .unknown) (hquoted : ∀ text, b = .stringz (some text) → 2 ≤ text.length)
    (hlen : bodyLength b = .ok n) (hemit : emitBody p tab c b = .ok out) : out.length = n := by
  cases b with
  | nothing | orig | finish => cases hlen; cases hemit; rfl
  | instruction m ops =>
    obtain ⟨i, -, rfl⟩ := exists_of_map_eq_ok hemit
    cases hlen; rfl
  | fill ops =>
    obtain ⟨_, -, rfl⟩ := exists_of_map_eq_ok hlen
    obtain ⟨w, -, rfl⟩ := exists_of_map_eq_ok hemit
    rfl
  | blkw ops =>
    have hcount : blkwCount ops = .ok n := hlen
    obtain ⟨k, hk, rfl⟩ := exists_of_map_eq_ok hemit
    rw [hcount] at hk
    cases hk
    exact List.length_replicate
  | stringz text =>
    cases text with
    | none => cases hlen
    | some text =>
      cases hlen; cases hemit
      rw [List.length_map, length_stringzWords (hquoted text rfl)]
  | unknown => exact absurd rfl hknown

/-- Settles O59. -/
theorem passesAgreeOnLength : Obligations.PassesAgreeOnLength :=
  fun _ _ _ _ _ _ hknown hlen hemit => length_of_emitBody hknown (fun _ => two_le_length_of_parseLine) hlen hemit

end Sys2Proof.Machine
end

section
/-! PROOFS. The statements of 40_fetch_decode.md: fetch, increment and decode (R131, R132), no step in HALTED (R130),
the sign flag (R140) and the halt on the all-zero word (R133). -/

namespace Sys2Proof.Machine

/-! ### The step -/

/-- The increment of the step, as a number modulo 2^16 (40_fetch_decode.md R132). -/
theorem State.advance_eq_ofNat (s : State) : s.advance = { s with pc := BitVec.ofNat 16 (s.pc.toNat + 1) } := by
  have hpc : s.pc + 1 = BitVec.ofNat 16 (s.pc.toNat + 1) := BitVec.eq_of_toNat_eq (by simp)
  rw [← hpc]; rfl

/-- Settles O1: both sides answer the effect of the decoded instruction. -/
theorem stepRunsDecodedInstruction : Obligations.StepRunsDecodedInstruction := by
  rintro s _ hr rfl
  rw [step_eq hr, ← exec_eq, State.advance_eq_ofNat]

/-- Settles O2. -/
theorem haltedBlockHasNoStep : Obligations.HaltedBlockHasNoStep := fun _ _ => step_halted

/-! ### The condition code -/

/-- Settles O24: cc after `SetCC` is `ccOf` of the value. -/
theorem setCcShowsTheSign : Obligations.SetCcShowsTheSign := fun _ v => ⟨signFlag_ccOf v, ccOf_oneFlag v⟩

/-! ### The halt on the all-zero word -/

/-- The end of the program halts with cause ZERO_WORD and moves nothing but the pc. -/
theorem effect_endOfProgram_haltOnly (s : State) :
    HaltOnly s (effect .endOfProgram s) (zeroHaltTarget Config.zeroHaltPc s) .zeroWord :=
  ⟨rfl, rfl, fun _ => rfl, rfl, fun _ => rfl, rfl⟩

/-- A halt sets the pc itself, so the increment before it does not show. -/
theorem HaltOnly.of_advance {s t : State} {target : Word} {c : HaltCause} (h : HaltOnly s.advance t target c) :
    HaltOnly s t target c :=
  ⟨h.pc, h.run, h.registers, h.cc, h.memory, h.draws⟩

/-- The decremented pc of the model's `UNCHANGED` undoes the increment of the step (log 19). -/
theorem zeroHaltTarget_unchanged_advance (s : State) : zeroHaltTarget .unchanged s.advance = s.pc :=
  BitVec.add_sub_cancel s.pc 1

/-- Settles O44. -/
theorem execOfTheZeroWordHalts : Obligations.ExecOfTheZeroWordHalts := by
  intro s
  have hhalt := effect_endOfProgram_haltOnly s
  exact ⟨_, exec_eq .endOfProgram s, fun hp => by rwa [hp] at hhalt, fun hp => by rwa [hp] at hhalt⟩

/-- Settles O43: the step ends with the effect of the end of the program after the increment, and the increment shows in
the pc alone. -/
theorem zeroWordHaltsWithoutAHandler : Obligations.ZeroWordHaltsWithoutAHandler := by
  intro s hr hz
  have hstep : step s = .next (effect .endOfProgram s.advance) := by rw [step_eq hr, hz]; rfl
  have hhalt := (effect_endOfProgram_haltOnly s.advance).of_advance
  obtain ⟨-, hend, -⟩ := stepOutputsAreExact s _ hstep
  refine ⟨_, hstep, hend.mpr hz, fun hp => ?_, fun hp => ?_⟩
  · rwa [hp] at hhalt
  · rwa [hp, zeroHaltTarget_unchanged_advance] at hhalt

end Sys2Proof.Machine
end

section
/-! PROOFS. The statements of 41_add_and.md: ADD (R147, R148) and AND (R149, R150), their words and their effects. -/

namespace Sys2Proof

/-! ### An opcode or a bit given as a field, as a quotient of the word's number -/

theorem opcode_of_field {w : Word} {op : BitVec 4} (h : field w 12 4 = op) : w.toNat / 4096 = op.toNat := by
  rw [← opcode_toNat, h]

theorem bit_of_field {w : Word} {i : Nat} {b : BitVec 1} (h : field w i 1 = b) : w.toNat / 2 ^ i % 2 = b.toNat :=
  (field_toNat w i 1).symm.trans (congrArg BitVec.toNat h)

end Sys2Proof

namespace Sys2Proof.Machine

/-! ### The end of every condition-affecting handler -/

/-- `x[DR] <- v; SetCC(v)` has `v` as its result and its sign as cc, and changes nothing else. -/
theorem resultOnly_writeResult (s : State) (dr : Reg) (v : Word) : ResultOnly s (s.writeResult dr v) dr v where
  result := Regs.read_write_same s.regs dr v
  flag := signFlag_ccOf v
  others _ hr := Regs.read_write_other s.regs v hr
  pc := rfl
  memory _ := rfl
  run := rfl
  draws := rfl

/-! ### ADD and AND -/

/-- Bit `i` of a sign-extended value is its own bit `i`, and its sign bit from there on (00_scope.md R13). -/
theorem sext_getLsbD {n i : Nat} (hn : 0 < n) (v : BitVec n) (hi : i < 16) :
    (sext v).getLsbD i = v.getLsbD (min i (n - 1)) := by
  rw [sext, BitVec.getLsbD_signExtend, decide_eq_true hi, Bool.true_and]
  split
  · rw [min_eq_left (by omega)]
  · rw [min_eq_right (by omega), BitVec.msb_eq_getLsbD_last]

/-- Settles O25: the handlers write the word sum, which is the signed sum narrowed; sign extension keeps the immediate's
value. -/
theorem addWritesTheSum : Obligations.AddWritesTheSum := by
  refine ⟨fun w hop hbit => decode_add (opcode_of_field hop) (bit_of_field hbit),
    fun w hop hbit => decode_addI (opcode_of_field hop) (bit_of_field hbit),
    fun dr sr1 sr2 s => ⟨_, exec_eq _ s, ?_⟩, fun dr sr1 imm5 s => ⟨_, exec_eq _ s, ?_⟩⟩
  · rw [← add_eq_ofInt]
    exact resultOnly_writeResult s dr _
  · rw [← sext_toInt (by decide : 5 ≤ 16) imm5, ← add_eq_ofInt]
    exact resultOnly_writeResult s dr _

/-- Settles O26: the handlers write the word conjunction, whose bits are those of its operands, the immediate's by
sign extension. -/
theorem andWritesTheConjunction : Obligations.AndWritesTheConjunction := by
  refine ⟨fun w hop hbit => decode_and (opcode_of_field hop) (bit_of_field hbit),
    fun w hop hbit => decode_andI (opcode_of_field hop) (bit_of_field hbit),
    fun dr sr1 sr2 s => ⟨_, _, exec_eq _ s, resultOnly_writeResult s dr _, fun i _ => ?_⟩,
    fun dr sr1 imm5 s => ⟨_, _, exec_eq _ s, resultOnly_writeResult s dr _, fun i hi => ?_⟩⟩
  · exact BitVec.getLsbD_and
  · rw [BitVec.getLsbD_and, sext_getLsbD (by decide) imm5 hi]

end Sys2Proof.Machine
end

section
/-! PROOFS. The statements of 42_control.md: BR (R153), JMP and RET (R154, R155), JSR (R156), JSRR (R157), and the words
that have a second constructor (R155, R176). -/

namespace Sys2Proof.Machine

/-! ### The constructors of RET and of GETC to HALT -/

/-- An instruction has the meaning of the variant of 30_encoding.md R103 it stands for. -/
theorem exec_core (i : Instr) (s : State) : exec i.core s = exec i s := by cases i <;> rfl

/-- A variant and its row's constructor have one meaning, because both stand for the same variant. -/
theorem exec_named (i : Instr) (s : State) : exec i.named s = exec i s := by
  rw [← exec_core i.named, Instr.core_named, exec_core]

/-- Settles O11. -/
theorem namedWordsRunAsJmpAndTrap : Obligations.NamedWordsRunAsJmpAndTrap :=
  ⟨fun w s => exec_named (decode w) s, fun i s => ⟨(exec_core i s).symm, (encode_core i).symm⟩,
    fun i hi => by rw [Instr.core_named, Instr.core_of_isCore hi]⟩

/-! ### The two ends of a control transfer -/

/-- `pc <- target` moves the pc alone. -/
theorem jumpOnly_setPc (s : State) (target : Word) : JumpOnly s (s.setPc target) target :=
  ⟨rfl, fun _ => rfl, rfl, fun _ => rfl, rfl, rfl⟩

/-- The link write leaves the incremented pc in R7 (10_state.md R28). -/
theorem link_readReg_r7 (s : State) : s.link.readReg .r7 = s.pc := Regs.read_write_same s.regs .r7 s.pc

/-- `x[7] <- pc; pc <- target` writes the return address to R7, moves the pc and changes nothing else. -/
theorem callOnly_link_setPc (s : State) (target : Word) : CallOnly s (s.link.setPc target) target where
  pc := rfl
  link := link_readReg_r7 s
  others _ hr := Regs.read_write_other s.regs s.pc hr
  cc := rfl
  memory _ := rfl
  run := rfl
  draws := rfl

/-! ### BR -/

/-- The mask meets cc exactly if they share a flag (42_control.md R153). -/
theorem branchTaken_iff {nzp cc : BitVec 3} :
    branchTaken nzp cc = true ↔ ∃ i < 3, nzp.getLsbD i = true ∧ cc.getLsbD i = true := by
  simp [branchTaken, BitVec.eq_of_getLsbD_eq_iff]

/-- Settles O28: the two premises are the two answers of the branch test. -/
theorem brBranchesOnTheMask : Obligations.BrBranchesOnTheMask := by
  refine ⟨fun w h0 hop => decode_br h0 (opcode_of_field hop),
    fun nzp off9 s => ⟨_, exec_eq _ s, fun htaken => ?_, fun hdisjoint => ?_⟩⟩
  · rw [effect, if_pos (branchTaken_iff.mpr htaken), ← add_sext_eq_ofInt (by decide : 9 ≤ 16)]
    exact jumpOnly_setPc s _
  · refine if_neg fun htaken => ?_
    obtain ⟨i, hi, hmask, hflag⟩ := branchTaken_iff.mp htaken
    exact Bool.false_ne_true ((hdisjoint i hi hmask).symm.trans hflag)

/-! ### JMP and RET -/

/-- Settles O29. -/
theorem jmpAndRetGoThroughARegister : Obligations.JmpAndRetGoThroughARegister := by
  refine ⟨fun w hop => decode_jmp (opcode_of_field hop), rfl, fun w s hop hbase => ?_,
    fun base s => ⟨_, exec_eq _ s, jumpOnly_setPc s _⟩, fun s => ⟨_, exec_eq _ s, jumpOnly_setPc s _⟩⟩
  rw [decode_jmp (opcode_of_field hop), hbase]
  exact exec_core .ret s

/-! ### JSR and JSRR -/

/-- Settles O30. -/
theorem jsrCallsPcRelative : Obligations.JsrCallsPcRelative := by
  refine ⟨fun w hop hbit => decode_jsr (opcode_of_field hop) (bit_of_field hbit), fun off11 s => ⟨_, exec_eq _ s, ?_⟩⟩
  rw [← add_sext_eq_ofInt (by decide : 11 ≤ 16)]
  exact callOnly_link_setPc s _

theorem jsrrTarget_of_ne_r7 {base : Reg} (h : base ≠ .r7) (linkFirst : Bool) (s : State) :
    jsrrTarget linkFirst base s = s.readReg base := if_neg h

/-- JSRR R7 with the link write first reads back the return address (42_control.md R157). -/
theorem jsrrTarget_r7_linkFirst (s : State) : jsrrTarget true .r7 s = s.pc := link_readReg_r7 s

theorem jsrrTarget_r7_linkLast (s : State) : jsrrTarget false .r7 s = s.readReg .r7 := rfl

/-- Settles O31: JSRR is a call to `jsrrTarget`, which has one value a clause. -/
theorem jsrrCallsThroughARegister : Obligations.JsrrCallsThroughARegister := by
  refine ⟨fun w hop hbit => decode_jsrr (opcode_of_field hop) (bit_of_field hbit), fun base s => ?_⟩
  have hcall : CallOnly s (effect (.jsrr base) s) (jsrrTarget Config.jsrrLinkFirst base s) := callOnly_link_setPc s _
  refine ⟨_, exec_eq _ s, fun hbase => ?_, ?_, ?_⟩
  · rwa [jsrrTarget_of_ne_r7 hbase] at hcall
  · rintro rfl hfirst
    rwa [hfirst, jsrrTarget_r7_linkFirst] at hcall
  · rintro rfl hlast
    rwa [hlast, jsrrTarget_r7_linkLast] at hcall

end Sys2Proof.Machine
end

section
/-! PROOFS. The statements of 43_load.md: LD (R160), LDI (R161), LDR (R162) and LEA (R163), their words and their
effects. -/

namespace Sys2Proof.Machine

/-! ### Effective addresses as integer sums (30_encoding.md R88 to R90) -/

theorem pcRelative_eq_ofInt {n : Nat} (h : n ≤ 16) (s : State) (off : BitVec n) :
    pcRelative s off = BitVec.ofInt 16 (s.pc.toNat + off.toInt) := add_sext_eq_ofInt h s.pc off

theorem basePlus_eq_ofInt (s : State) (base : Reg) (off6 : BitVec 6) :
    basePlus s base off6 = BitVec.ofInt 16 ((s.readReg base).toNat + off6.toInt) :=
  add_sext_eq_ofInt (by decide) (s.readReg base) off6

/-! ### Loads -/

/-- Settles O32. -/
theorem ldLoadsPcRelative : Obligations.LdLoadsPcRelative := by
  refine ⟨fun w hop => decode_ld (opcode_of_field hop), fun dr off9 s => ⟨_, exec_eq _ s, ?_⟩⟩
  rw [← pcRelative_eq_ofInt (by decide : 9 ≤ 16)]
  exact resultOnly_writeResult s dr _

/-- Settles O33: the pointer is the word at the PC-relative address. -/
theorem ldiLoadsIndirect : Obligations.LdiLoadsIndirect := by
  refine ⟨fun w hop => decode_ldi (opcode_of_field hop), fun dr off9 s => ⟨_, exec_eq _ s, ?_⟩⟩
  rw [← pcRelative_eq_ofInt (by decide : 9 ≤ 16)]
  exact resultOnly_writeResult s dr (s.memRead (pointer s off9))

/-- Settles O34: the handler reads the base register before it writes DR, so the two may coincide. -/
theorem ldrLoadsBasePlusOffset : Obligations.LdrLoadsBasePlusOffset := by
  refine ⟨fun w hop => decode_ldr (opcode_of_field hop), fun dr base off6 s => ⟨_, exec_eq _ s, ?_⟩⟩
  rw [← basePlus_eq_ofInt]
  exact resultOnly_writeResult s dr _

/-! ### LEA -/

/-- Settles O35. -/
theorem leaWritesTheAddress : Obligations.LeaWritesTheAddress := by
  refine ⟨fun w hop => decode_lea (opcode_of_field hop), fun dr off9 s => ⟨_, exec_eq _ s, ?_⟩⟩
  rw [← pcRelative_eq_ofInt (by decide : 9 ≤ 16)]
  exact resultOnly_writeResult s dr _

end Sys2Proof.Machine
end

section
/-! PROOFS. The statement of 44_not.md: NOT (R165), its words and its effect. -/

namespace Sys2Proof.Machine

/-- Settles O27: the handler writes the word complement, whose bits within the word are the operand's, negated. -/
theorem notWritesTheComplement : Obligations.NotWritesTheComplement := by
  refine ⟨fun w hop => decode_not (opcode_of_field hop),
    fun dr sr s => ⟨_, _, exec_eq _ s, resultOnly_writeResult s dr _, fun i hi => ?_⟩⟩
  rw [BitVec.getLsbD_not, decide_eq_true hi, Bool.true_and]

end Sys2Proof.Machine
end

section
/-! PROOFS. The statements of 45_store.md: ST (R167), STI (R168) and STR (R169), their words and their effects. -/

namespace Sys2Proof.Machine

/-! ### The end of every store -/

/-- `MemWrite(ea, 1, v)` leaves `v` at `ea` (20_memory.md R55) and changes nothing else; no store writes a register or
cc (R170). -/
theorem storeOnly_memWrite (s : State) (ea v : Word) : StoreOnly s (s.memWrite ea v) ea v where
  stored := (readAfterWrite s ea ea v).trans (if_pos rfl)
  others a ha := (readAfterWrite s ea a v).trans (if_neg ha)
  registers _ := rfl
  cc := rfl
  pc := rfl
  run := rfl
  draws := rfl

/-! ### Stores -/

/-- Settles O36. -/
theorem stStoresPcRelative : Obligations.StStoresPcRelative :=
  ⟨fun _ hop => decode_st (opcode_of_field hop), fun sr off9 s =>
    ⟨_, exec_eq _ s, storeOnly_memWrite s (pcRelative s off9) (s.readReg sr), pcRelative_eq_ofInt (by decide) s off9⟩⟩

/-- Settles O37: the pointer is the word at the PC-relative address before the store, which may overwrite it. -/
theorem stiStoresIndirect : Obligations.StiStoresIndirect :=
  ⟨fun _ hop => decode_sti (opcode_of_field hop), fun sr off9 s =>
    ⟨_, exec_eq _ s, storeOnly_memWrite s (pointer s off9) (s.readReg sr),
      congrArg s.memRead (pcRelative_eq_ofInt (by decide) s off9)⟩⟩

/-- Settles O38: a store writes no register, so SR and BaseR may coincide. -/
theorem strStoresBasePlusOffset : Obligations.StrStoresBasePlusOffset :=
  ⟨fun _ hop => decode_str (opcode_of_field hop), fun sr base off6 s =>
    ⟨_, exec_eq _ s, storeOnly_memWrite s (basePlus s base off6) (s.readReg sr), basePlus_eq_ofInt s base off6⟩⟩

end Sys2Proof.Machine
end

section
/-! PROOFS. The statements of 46_system.md: TRAP for every vector (R172), RTI, the unrecognized opcode and unrecognized
vectors (R171, R175, R177), HALT (R173), and the I/O routines within the bound of 60_exceptions.md R186 (R174). -/

namespace Sys2Proof.Machine

/-! ### The three things a TRAP can do -/

theorem drawsInput_iff {v : BitVec 8} : drawsInput v = true ↔ v = 0x20 ∨ v = 0x23 := by simp [drawsInput]

/-- `pc <- 0x0000; halt(TRAP_HALT)` moves the pc, sets the run status and changes nothing else. -/
theorem haltOnly_haltSentinel (s : State) : HaltOnly s s.haltSentinel 0x0000 .trapHalt :=
  ⟨rfl, rfl, fun _ => rfl, rfl, fun _ => rfl, rfl⟩

/-- A drawn value goes to R0, the draw is counted and nothing else changes. -/
theorem inputOnly_draw (s : State) (x : Word) : InputOnly s { s.writeReg .r0 x with draws := s.draws + 1 } where
  others _ hr := Regs.read_write_other s.regs x hr
  cc := rfl
  pc := rfl
  memory _ := rfl
  run := rfl
  draws := rfl

theorem afterTrap_haltOnly (s : State) : HaltOnly s (afterTrap 0x25 s) 0x0000 .trapHalt := by
  rw [afterTrap_of_drawsNothing rfl, if_pos rfl]
  exact haltOnly_haltSentinel s

theorem afterTrap_inputOnly {v : BitVec 8} (h : drawsInput v = true) (s : State) : InputOnly s (afterTrap v s) := by
  obtain ⟨rfl, -⟩ | ⟨-, -, ht⟩ | ⟨-, hd, -⟩ := afterTrap_cases v s
  · cases h
  · rw [ht]; exact inputOnly_draw s _
  · rw [h] at hd; cases hd

theorem afterTrap_eq_self {v : BitVec 8} (hd : drawsInput v = false) (h25 : v ≠ 0x25) (s : State) :
    afterTrap v s = s := (afterTrap_of_drawsNothing hd s).trans (if_neg h25)

/-- Settles O42: one clause for each of the three things a TRAP can do; none of them writes a register but R0. -/
theorem trapFollowsItsVector : Obligations.TrapFollowsItsVector := by
  intro v s
  refine ⟨_, exec_eq (.trap v) s, fun hv => afterTrap_inputOnly (drawsInput_iff.mpr hv) s, ?_, fun h20 h23 h25 => ?_,
    afterTrap_readReg (fun _ => by decide) s⟩
  · rintro rfl
    exact afterTrap_haltOnly s
  · have hd : drawsInput v = false := by rw [Bool.eq_false_iff, Ne, drawsInput_iff]; exact not_or.mpr ⟨h20, h23⟩
    exact afterTrap_eq_self hd h25 s

/-! ### The instructions that change nothing -/

theorem recognizedVector_eq_false {v : BitVec 8} (h : v.toNat < 0x20 ∨ 0x25 < v.toNat) : recognizedVector v = false :=
  decide_eq_false (by omega)

theorem exec_of_effect_eq_self {i : Instr} {s : State} (h : effect i s = s) : exec i s = .next s := by
  rw [exec_eq, h]

/-- Settles O39. -/
theorem noOpsChangeNothing : Obligations.NoOpsChangeNothing :=
  ⟨fun _ hop => decode_rti (opcode_of_field hop), fun _ hop => decode_unrecognized (opcode_of_field hop),
    fun _ hop _ => decode_trap (opcode_of_field hop), exec_eq .rti, exec_eq .unrecognized,
    fun _ s hv => exec_of_effect_eq_self (afterTrap_unrecognized (recognizedVector_eq_false hv) s)⟩

/-! ### The named routines -/

theorem decode_trap_of_fields {w : Word} {v : BitVec 8} (hop : field w 12 4 = 0b1111) (hv : field w 0 8 = v) :
    decode w = .trap v := hv ▸ decode_trap (opcode_of_field hop)

/-- A word that decodes to the variant a named routine stands for has the routine's meaning (log 9). -/
theorem exec_decode_of_core {w : Word} {i : Instr} (h : decode w = i.core) (s : State) :
    exec (decode w) s = exec i s := by rw [h, exec_core]

/-- Settles O40. -/
theorem haltStopsAtTheSentinel : Obligations.HaltStopsAtTheSentinel :=
  ⟨rfl, fun _ => decode_trap_of_fields,
    fun s => ⟨⟨_, exec_eq .halt s, afterTrap_haltOnly s⟩, ⟨_, exec_eq (.trap 0x25) s, afterTrap_haltOnly s⟩⟩⟩

/-- Settles O41: each routine's word has the routine's meaning, and the routine is a TRAP of its vector. -/
theorem ioRoutinesStayInsideTheirBound : Obligations.IoRoutinesStayInsideTheirBound := by
  refine ⟨fun w s hop => ?_, fun s => ?_⟩
  · have hword (i : Instr) {v : BitVec 8} (hi : i.core = .trap v) (hv : field w 0 8 = v) :
        exec (decode w) s = exec i s := exec_decode_of_core ((decode_trap_of_fields hop hv).trans hi.symm) s
    exact ⟨decode_trap_of_fields hop rfl, hword .getc rfl, hword .out rfl, hword .puts rfl, hword .inp rfl,
      hword .putsp rfl⟩
  · exact ⟨⟨_, exec_eq .getc s, afterTrap_inputOnly rfl s⟩, ⟨_, exec_eq .inp s, afterTrap_inputOnly rfl s⟩,
      exec_of_effect_eq_self (afterTrap_eq_self rfl (by decide) s),
      exec_of_effect_eq_self (afterTrap_eq_self rfl (by decide) s),
      exec_of_effect_eq_self (afterTrap_eq_self rfl (by decide) s)⟩

end Sys2Proof.Machine
end

section
/-! PROOFS. The statements of 60_exceptions.md: the bound on a collaborator's reply (R186) and the two callers (R194,
R195). -/

namespace Sys2Proof.Machine

/-! ### The collaborator's reply -/

/-- A statement about every register but R0 is one about R1..R7. -/
theorem forall_reg_ne_r0_iff {p : Reg → Prop} :
    (∀ r, r ≠ .r0 → p r) ↔ ∀ r ∈ [Reg.r1, .r2, .r3, .r4, .r5, .r6, .r7], p r := by
  have hmem (r : Reg) : r ≠ .r0 ↔ r ∈ [Reg.r1, .r2, .r3, .r4, .r5, .r6, .r7] := by cases r <;> decide
  simp only [hmem]

/-- The block's test of a reply, clause by clause (60_exceptions.md R186). -/
theorem serviceAdmits_iff {v : BitVec 8} {s s' : State} :
    serviceAdmits v s s' = true ↔
      s'.pc = s.pc ∧ s'.run = s.run ∧ s'.cc = s.cc ∧ (∀ r, r ≠ .r0 → s'.readReg r = s.readReg r) ∧
        s'.mem = s.mem ∧ (v ≠ 0x20 → v ≠ 0x23 → s'.readReg .r0 = s.readReg .r0) := by
  have hr0 : (drawsInput v || decide (s'.readReg .r0 = s.readReg .r0)) = true ↔
      (v ≠ 0x20 → v ≠ 0x23 → s'.readReg .r0 = s.readReg .r0) := by
    rw [Bool.or_eq_true, drawsInput_iff, decide_eq_true_eq]; tauto
  rw [forall_reg_ne_r0_iff, ← hr0]
  simp only [serviceAdmits, Bool.and_eq_true, decide_eq_true_eq, List.all_eq_true, and_assoc]

/-- Settles O45: both clauses are the two branches of the block's test. -/
theorem serviceReplyIsBounded : Obligations.ServiceReplyIsBounded := by
  intro v s s'
  exact ⟨fun h => if_pos (serviceAdmits_iff.mpr h), fun h => if_neg (mt serviceAdmits_iff.mp h)⟩

/-! ### The two callers -/

/-- A caller that stops took a step, and either its test stops it there or it goes on from there with less fuel. -/
theorem callerRun_inv {c : CallerStop} {fuel : Nat} {s u : State} (h : callerRun c fuel s = some u) :
    ∃ n t, fuel = n + 1 ∧ step s = .next t ∧
      (c.stops (stepOutput s t) = true ∧ u = t ∨ c.stops (stepOutput s t) = false ∧ callerRun c n t = some u) := by
  cases fuel with
  | zero => cases h
  | succ n =>
    unfold callerRun at h
    split at h
    · next t ht =>
      split at h
      · next hstop => exact ⟨n, t, rfl, ht, .inl ⟨hstop, (Option.some.inj h).symm⟩⟩
      · next hgo => exact ⟨n, t, rfl, ht, .inr ⟨Bool.eq_false_iff.mpr hgo, h⟩⟩
    · cases h
    · cases h

/-- One step of a caller's loop. -/
theorem callerRun_succ {s t : State} (h : step s = .next t) (c : CallerStop) (n : Nat) :
    callerRun c (n + 1) s = if c.stops (stepOutput s t) then some t else callerRun c n t := by
  rw [callerRun, h]

/-- The sentinel caller's test is the other caller's, or the sentinel (60_exceptions.md R195). -/
theorem stops_onSentinel_iff {o : StepOutput} :
    CallerStop.onSentinel.stops o = true ↔ CallerStop.onHalted.stops o = true ∨ o.pcOut = 0x0000 := by
  have hne : (CallerStop.onHalted == CallerStop.onSentinel) = false := rfl
  simp [CallerStop.stops, hne]

/-- Settles O54, by induction on the fuel: the sentinel caller's test holds wherever the other's does. -/
theorem sentinelCallerStopsNoLater : Obligations.SentinelCallerStopsNoLater := by
  intro fuel s t h
  induction fuel generalizing s with
  | zero => cases h
  | succ fuel ih =>
    obtain ⟨_, t₁, ⟨⟩, hstep, hrest⟩ := callerRun_inv h
    have hloop := callerRun_succ hstep .onSentinel
    by_cases hstop : CallerStop.onSentinel.stops (stepOutput s t₁) = true
    · refine ⟨1, t₁, by omega, (hloop 0).trans (if_pos hstop), ?_⟩
      obtain hhalt | hpc := stops_onSentinel_iff.mp hstop
      · obtain ⟨-, rfl⟩ | ⟨hgo, -⟩ := hrest
        · exact .inr rfl
        · rw [hhalt] at hgo; cases hgo
      · exact .inl hpc
    · obtain ⟨hhalt, -⟩ | ⟨-, hrun⟩ := hrest
      · exact absurd (stops_onSentinel_iff.mpr (.inl hhalt)) hstop
      · obtain ⟨n, u, hn, hu, hres⟩ := ih _ hrun
        exact ⟨n + 1, u, Nat.succ_le_succ hn, ((hloop n).trans (if_neg hstop)).trans hu, hres⟩

end Sys2Proof.Machine
end

section
/-! PROOFS. The statements of 70_reset_and_hazards.md: the lines of a memory image (R198), what an initialization loads
(R197, R199, R201, R203) and the images that leave no state (R200, R202). -/

namespace Sys2Proof.Machine

/-! ### Binary lines (R198) -/

theorem digitValue_two_eq_some_iff {c : Char} {d : Nat} :
    digitValue 2 c = some d ↔ ∃ b : Bool, c = bitChar b ∧ d = b.toNat := by
  constructor
  · intro h
    have hd : (c.toNat = 48 ∧ d = 0) ∨ (c.toNat = 49 ∧ d = 1) := by
      simp only [digitValue] at h
      split_ifs at h <;> simp only [Option.some.injEq] at h <;> omega
    obtain ⟨hc, rfl⟩ | ⟨hc, rfl⟩ := hd
    · exact ⟨false, Char.toNat_inj.mp hc, rfl⟩
    · exact ⟨true, Char.toNat_inj.mp hc, rfl⟩
  · rintro ⟨b, rfl, rfl⟩
    cases b <;> rfl

/-- A first digit `c` before the lower bits of `n`: it adds the bit of `n` above them. -/
theorem digit_bit_iff {c : Char} {acc k n : Nat} :
    (∃ d, digitValue 2 c = some d ∧ n / 2 ^ k = acc * 2 + d) ↔
      n / 2 ^ (k + 1) = acc ∧ c = bitChar (n.testBit k) := by
  have hbit : (n.testBit k).toNat = n / 2 ^ k % 2 := Nat.toNat_testBit n k
  rw [pow_succ, ← Nat.div_div_eq_div_mul]
  constructor
  · rintro ⟨d, hd, hn⟩
    obtain ⟨b, rfl, rfl⟩ := digitValue_two_eq_some_iff.mp hd
    have hb : b.toNat < 2 := Bool.toNat_lt b
    have hbn : b.toNat = (n.testBit k).toNat := by omega
    exact ⟨by omega, congrArg bitChar (Function.LeftInverse.injective Bool.ofNat_toNat hbn)⟩
  · rintro ⟨rfl, rfl⟩
    exact ⟨_, digitValue_two_eq_some_iff.mpr ⟨_, rfl, rfl⟩, by omega⟩

/-- Binary digits after `acc` give `n` exactly when they are the low bits of `n`, highest first, and `acc` the rest. -/
theorem digitsFrom_two_eq_some_iff {cs : List Char} {acc n : Nat} :
    digitsFrom 2 acc cs = some n ↔
      n / 2 ^ cs.length = acc ∧ ∀ i < cs.length, cs[i]? = some (bitChar (n.testBit (cs.length - 1 - i))) := by
  induction cs generalizing acc with
  | nil => simp [digitsFrom, eq_comm]
  | cons c cs ih =>
    have hstep : digitsFrom 2 acc (c :: cs) = some n ↔
        ∃ d, digitValue 2 c = some d ∧ digitsFrom 2 (acc * 2 + d) cs = some n := by
      rw [digitsFrom]; cases digitValue 2 c <;> simp
    rw [hstep, List.length_cons, Nat.forall_lt_succ_left, ← and_assoc]
    simp only [ih, ← and_assoc, exists_and_right, digit_bit_iff, List.getElem?_cons_zero, List.getElem?_cons_succ,
      Option.some.injEq, Nat.add_sub_cancel, Nat.sub_zero, Nat.sub_sub, Nat.add_comm 1]

/-- Settles O57: sixteen binary digits leave nothing of the word above them. -/
theorem binaryLinesAreWords : Obligations.BinaryLinesAreWords := by
  intro cs w
  by_cases hlen : cs.length = 16
  · have hdigits : parseBits cs = some w ↔ digitsFrom 2 0 cs = some w.toNat := by
      rw [parseBits, if_pos hlen, Option.map_eq_some_iff]
      constructor
      · rintro ⟨n, hn, rfl⟩
        have hhigh := (digitsFrom_two_eq_some_iff.mp hn).1
        rw [hlen] at hhigh
        rw [hn, BitVec.toNat_ofNat, Nat.mod_eq_of_lt (by omega)]
      · exact fun h => ⟨_, h, by rw [BitVec.ofNat_toNat, BitVec.setWidth_eq]⟩
    rw [hdigits, digitsFrom_two_eq_some_iff, hlen]
    simp [Nat.div_eq_of_lt w.isLt, BitVec.testBit_toNat, bitChar]
  · simp [parseBits, hlen]

/-- A line parses to a word exactly when it is the word's line (20_memory.md R58). -/
theorem parseBits_eq_some_iff {cs : List Char} {w : Word} : parseBits cs = some w ↔ cs = renderBits w := by
  have hrender (i : Nat) (hi : i < 16) : (renderBits w)[i]? = some (bitChar (w.getLsbD (15 - i))) := by
    simp [renderBits, hi]
  have hlen : (renderBits w).length = 16 := by simp [renderBits]
  refine (binaryLinesAreWords cs w).trans ⟨fun ⟨hcs, hbits⟩ => ?_, ?_⟩
  · refine List.ext_getElem? fun i => ?_
    by_cases hi : i < 16
    · rw [hbits i hi, hrender i hi, bitChar]
    · rw [List.getElem?_eq_none (by omega), List.getElem?_eq_none (by omega)]
  · rintro rfl
    exact ⟨hlen, hrender⟩

theorem parseLines_eq_some_iff {ls : List (List Char)} {ws : List Word} :
    parseLines ls = some ws ↔ ls = ws.map renderBits := by
  induction ls generalizing ws with
  | nil => cases ws <;> simp [parseLines]
  | cons l ls ih =>
    have hstep : parseLines (l :: ls) = some ws ↔
        ∃ w ws', parseBits l = some w ∧ parseLines ls = some ws' ∧ w :: ws' = ws := by
      rw [parseLines]; cases parseBits l <;> cases parseLines ls <;> simp
    rw [hstep]
    simp only [parseBits_eq_some_iff, ih]
    cases ws <;> simp

/-! ### Register values (R201) -/

/-- A register image is refused for one bad token, wherever it stands (log 12). -/
theorem parseValues_eq_none_iff {ts : List Token} : parseValues ts = none ↔ ∃ t ∈ ts, parseDecimal t = none := by
  induction ts with
  | nil => simp [parseValues]
  | cons t ts ih =>
    rw [List.exists_mem_cons_iff, ← ih, parseValues]
    cases parseDecimal t <;> cases parseValues ts <;> simp

theorem Regs.ofValues_toList {vs : List Int} (h : 8 ≤ vs.length) :
    (Regs.ofValues vs).toList =
      [vs[0], vs[1], vs[2], vs[3], vs[4], vs[5], vs[6], vs[7]].map fun v => BitVec.ofInt 16 v := by
  match vs, h with
  | _ :: _ :: _ :: _ :: _ :: _ :: _ :: _ :: _, _ => rfl

theorem Regs.ofValues_of_length_lt {vs : List Int} (h : vs.length < 8) : Regs.ofValues vs = Regs.zero := by
  unfold Regs.ofValues
  split
  · simp only [List.length_cons] at h; omega
  · rfl

@[simp] theorem Regs.read_zero (q : Reg) : Regs.zero.read q = 0x0000 := by cases q <;> rfl

/-! ### What an initialization is made of (R197) -/

theorem initMemory_eq_ok_iff {r : InitRequest} {m : Memory} :
    initMemory r = .ok m ↔
      (r.memImage = .absent ∧ m = Memory.ofFun r.memInit) ∨
      ∃ ws : List Word, r.memImage = .present (ws.map renderBits) ∧
        m = loadWords (Memory.ofFun r.memInit) r.loadBase ws := by
  unfold initMemory
  cases r.memImage with
  | absent => simp [eq_comm]
  | unreadable => simp
  | present lines =>
    simp only [Source.present.injEq, ← parseLines_eq_some_iff]
    cases parseLines lines <;> simp [eq_comm]

theorem initRegs_eq_ok_iff {r : InitRequest} {x : Regs} :
    initRegs r = .ok x ↔
      (r.regImage = .absent ∧ x = Regs.zero) ∨
      ∃ text vs, r.regImage = .present text ∧ parseValues (tokens text) = some vs ∧ x = Regs.ofValues vs := by
  unfold initRegs
  cases r.regImage with
  | absent => simp [eq_comm]
  | unreadable => simp
  | present text => cases hvs : parseValues (tokens text) <;> simp [hvs, eq_comm]

/-- An initialization completes when its memory and its registers do. -/
theorem init_of_ok {r : InitRequest} {m : Memory} {x : Regs} (hm : initMemory r = .ok m) (hx : initRegs r = .ok x) :
    init r = .ok { regs := x, pc := r.startPc, cc := 0b000, mem := m, run := .running, draws := 0 } := by
  rw [init, hm, hx]

theorem mem_of_init {r : InitRequest} {s : State} {m : Memory} (h : init r = .ok s) (hm : initMemory r = .ok m) :
    s.mem = m := by
  obtain ⟨m', x, hm', -, rfl⟩ := init_inv h
  exact Except.ok.inj (hm'.symm.trans hm)

theorem regs_of_init {r : InitRequest} {s : State} {x : Regs} (h : init r = .ok s) (hx : initRegs r = .ok x) :
    s.regs = x := by
  obtain ⟨m, x', -, hx', rfl⟩ := init_inv h
  exact Except.ok.inj (hx'.symm.trans hx)

/-- Settles O46. -/
theorem initSetsPcCcAndRun : Obligations.InitSetsPcCcAndRun := by
  intro r s h
  have hmem (habs : r.memImage = .absent) : s.mem = Memory.ofFun r.memInit :=
    mem_of_init h (initMemory_eq_ok_iff.mpr (.inl ⟨habs, rfl⟩))
  obtain ⟨m, x, -, -, rfl⟩ := init_inv h
  exact ⟨rfl, rfl, rfl, rfl, fun habs a => by rw [State.memRead_def, hmem habs, Memory.read_ofFun]⟩

/-! ### The memory image (R199) -/

/-- The address of the next line, from the next line's base. -/
theorem add_ofNat_succ (a : Word) (k : Nat) : a + BitVec.ofNat 16 (k + 1) = a + 1 + BitVec.ofNat 16 k := by
  rw [BitVec.ofNat_add, BitVec.add_assoc, BitVec.add_comm (BitVec.ofNat 16 k)]; rfl

/-- An address no line falls on keeps its word. -/
theorem Memory.read_loadWords_other {m : Memory} {base a : Word} {ws : List Word}
    (h : ∀ k < ws.length, a ≠ base + BitVec.ofNat 16 k) : (loadWords m base ws).read a = m.read a := by
  induction ws generalizing m base with
  | nil => rfl
  | cons w ws ih =>
    rw [List.length_cons, Nat.forall_lt_succ_left] at h
    obtain ⟨hfirst, hrest⟩ := h
    rw [BitVec.add_zero] at hfirst
    rw [loadWords, ih fun k hk => add_ofNat_succ base k ▸ hrest k hk, Memory.read_write, if_neg hfirst]

/-- A line no later line overwrites is the word at its address. -/
theorem Memory.read_loadWords_line {m : Memory} {base : Word} {ws : List Word} {k : Nat} (hk : k < ws.length)
    (hlast : ∀ j, k < j → j < ws.length → base + BitVec.ofNat 16 j ≠ base + BitVec.ofNat 16 k) :
    (loadWords m base ws).read (base + BitVec.ofNat 16 k) = ws[k] := by
  induction ws generalizing m base k with
  | nil => cases hk
  | cons w ws ih =>
    rw [loadWords]
    cases k with
    | zero =>
      have hother : ∀ j < ws.length, base + BitVec.ofNat 16 0 ≠ base + 1 + BitVec.ofNat 16 j := fun j hj =>
        add_ofNat_succ base j ▸ (hlast (j + 1) j.succ_pos (Nat.succ_lt_succ hj)).symm
      rw [Memory.read_loadWords_other hother, Memory.read_write, if_pos (BitVec.add_zero base), List.getElem_cons_zero]
    | succ k =>
      rw [add_ofNat_succ, List.getElem_cons_succ]
      refine ih (Nat.lt_of_succ_lt_succ hk) fun j hkj hj => ?_
      rw [← add_ofNat_succ, ← add_ofNat_succ]
      exact hlast (j + 1) (Nat.succ_lt_succ hkj) (Nat.succ_lt_succ hj)

/-- Settles O47. -/
theorem memoryImageIsLoaded : Obligations.MemoryImageIsLoaded := by
  rintro r _ ws s himage rfl h
  have hmem : s.mem = loadWords (Memory.ofFun r.memInit) r.loadBase ws :=
    mem_of_init h (initMemory_eq_ok_iff.mpr (.inr ⟨ws, himage, rfl⟩))
  simp only [State.memRead_def, hmem]
  exact ⟨fun k hk hlast => Memory.read_loadWords_line hk hlast,
    fun a ha => (Memory.read_loadWords_other ha).trans (Memory.read_ofFun r.memInit a)⟩

/-! ### The register image (R201) and the images that leave no state (R200, R202) -/

theorem exists_initMemory_eq_ok {r : InitRequest}
    (h : r.memImage = .absent ∨ ∃ ws : List Word, r.memImage = .present (ws.map renderBits)) :
    ∃ m, initMemory r = .ok m := by
  obtain habs | ⟨ws, hws⟩ := h
  · exact ⟨_, initMemory_eq_ok_iff.mpr (.inl ⟨habs, rfl⟩)⟩
  · exact ⟨_, initMemory_eq_ok_iff.mpr (.inr ⟨ws, hws, rfl⟩)⟩

theorem exists_initRegs_eq_ok {r : InitRequest}
    (h : r.regImage = .absent ∨ ∃ text, r.regImage = .present text ∧ ∀ t ∈ tokens text, parseDecimal t ≠ none) :
    ∃ x, initRegs r = .ok x := by
  obtain habs | ⟨text, htext, hgood⟩ := h
  · exact ⟨_, initRegs_eq_ok_iff.mpr (.inl ⟨habs, rfl⟩)⟩
  · have hvalues : parseValues (tokens text) ≠ none := fun hnone =>
      let ⟨t, ht, hbad⟩ := parseValues_eq_none_iff.mp hnone
      hgood t ht hbad
    obtain ⟨vs, hvs⟩ := Option.ne_none_iff_exists'.mp hvalues
    exact ⟨_, initRegs_eq_ok_iff.mpr (.inr ⟨text, vs, htext, hvs, rfl⟩)⟩

/-- Settles O48, a clause at a time: completion, the loaded values, no image, a bad token. -/
theorem registerImageIsLoaded : Obligations.RegisterImageIsLoaded := by
  refine fun r => ⟨fun hmem hreg => ?_, fun text vs s himage hvs h => ?_, fun s himage h q => ?_,
    fun text t himage ht hbad s h => ?_⟩
  · obtain ⟨m, hm⟩ := exists_initMemory_eq_ok hmem
    obtain ⟨x, hx⟩ := exists_initRegs_eq_ok hreg
    exact ⟨_, init_of_ok hm hx⟩
  · have hregs : s.regs = Regs.ofValues vs :=
      regs_of_init h (initRegs_eq_ok_iff.mpr (.inr ⟨text, vs, himage, hvs, rfl⟩))
    rw [hregs]
    refine ⟨Regs.ofValues_toList, fun hlt q => ?_⟩
    rw [State.readReg_def, hregs, Regs.ofValues_of_length_lt hlt, Regs.read_zero]
  · rw [State.readReg_def, regs_of_init h (initRegs_eq_ok_iff.mpr (.inl ⟨himage, rfl⟩)), Regs.read_zero]
  · obtain ⟨m, x, -, hx, -⟩ := init_inv h
    obtain ⟨habs, -⟩ | ⟨text', vs, himage', hvs, -⟩ := initRegs_eq_ok_iff.mp hx
    · rw [himage] at habs; cases habs
    · cases himage.symm.trans himage'
      rw [parseValues_eq_none_iff.mpr ⟨t, ht, hbad⟩] at hvs; cases hvs

/-- Settles O49. -/
theorem badImagesLeaveNoState : Obligations.BadImagesLeaveNoState := by
  intro r hbad s h
  obtain ⟨m, x, hm, hx, -⟩ := init_inv h
  have hm := initMemory_eq_ok_iff.mp hm
  have hx := initRegs_eq_ok_iff.mp hx
  obtain hmem | hreg | ⟨lines, l, himage, hl, hline⟩ := hbad
  · simp [hmem] at hm
  · simp [hreg] at hx
  · obtain ⟨habs, -⟩ | ⟨ws, hws, -⟩ := hm
    · rw [himage] at habs; cases habs
    · cases himage.symm.trans hws
      obtain ⟨w, -, rfl⟩ := List.mem_map.mp hl
      exact hline w rfl

end Sys2Proof.Machine
end

section
/-! PROOFS. The words written out in 95_test_vectors.md (E1, E2, V36, V62, V64). -/

namespace Sys2Proof

/-- Settles O12. -/
theorem wordsDecodeAsWritten : Obligations.WordsDecodeAsWritten := by
  unfold Obligations.WordsDecodeAsWritten
  decide

end Sys2Proof
end
